-- ==== Sys2Proof/Word.lean ====
section
/-! DEFINITION. The widths of this hardware (rule R15): every quantity is unsigned. -/

namespace Sys2Proof

/-- A byte, an unsigned 8-bit value (R15). -/
abbrev Byte := BitVec 8

/-- A 16-bit checksum value (R8). -/
abbrev Half := BitVec 16

/-- A location of the register space (R60): 32 bits. -/
abbrev Word := BitVec 32

end Sys2Proof
end

