-- ==== Sys2Proof/Config.lean ====
section
/-! DEFINITION. The implementation parameters (rules R6 to R14), the checksum function and the
device-command templates the spec leaves OPEN, and the free values. -/

namespace Sys2Proof

/-- The parameters of rules R6 to R13 as one record (R14; the last paragraph of `92_eei_decisions.md`). -/
structure Config where
  /-- `MAX_PAYLOAD` (R6). -/
  maxPayload : Nat
  /-- `TIMEOUT_DEFAULT`, in ticks (R7). -/
  timeoutDefault : Word
  /-- `TICK_PERIOD` in milliseconds (R7); no rule depends on it. -/
  tickPeriodMs : Nat
  /-- `STATUS_FRAME_LEN` (R9). -/
  statusFrameLen : Nat
  /-- `VERSION_FRAME_LEN` (R10). -/
  versionFrameLen : Nat
  /-- `VER_OFF_MODEL` (R10). -/
  verOffModel : Nat
  /-- `VER_OFF_FW` (R10). -/
  verOffFw : Nat
  /-- `VER_OFF_HW` (R10). -/
  verOffHw : Nat
  /-- `MODEL_SET` (R11). -/
  modelSet : List Byte
  /-- `FW_SET` (R11). -/
  fwSet : List Byte
  /-- `HW_SET` (R11). -/
  hwSet : List Byte
  /-- `MASK_RAM` (R12). -/
  maskRam : Byte
  /-- `MASK_WAIT` (R12). -/
  maskWait : Byte
  /-- `MASK_WRONG_READ` (R12). -/
  maskWrongRead : Byte
  /-- `MASK_WRONG_CLOCK` (R12). -/
  maskWrongClock : Byte
  /-- `RX_BUF_SIZE` (R13). -/
  rxBufSize : Nat
  /-- `FLUSH_ON_EXEC` (R13). -/
  flushOnExec : Bool
deriving DecidableEq, Repr

/-- The values of rule R14; D9 to D12 leave some of them open (log 18, DESIGN CHOICE, unsafe for a device
with others). -/
def Config.standard : Config where
  maxPayload := 32
  timeoutDefault := 5000
  tickPeriodMs := 1
  statusFrameLen := 7
  versionFrameLen := 9
  verOffModel := 3
  verOffFw := 4
  verOffHw := 5
  modelSet := [0x01]
  fwSet := [0x34]
  hwSet := [0x00]
  maskRam := 0x01
  maskWait := 0x02
  maskWrongRead := 0x08
  maskWrongClock := 0x10
  rxBufSize := 64
  flushOnExec := true

/-- The constraints rules R6 and R9 to R13 put on a configuration. -/
structure Config.Legal (c : Config) : Prop where
  maxPayload_pos : 1 ≤ c.maxPayload
  maxPayload_le : c.maxPayload ≤ 251
  statusFrameLen_ge : 7 ≤ c.statusFrameLen
  statusFrameLen_le : c.statusFrameLen ≤ c.rxBufSize
  versionFrameLen_le : c.versionFrameLen ≤ c.rxBufSize
  verOffModel_le : c.verOffModel + 3 ≤ c.versionFrameLen
  verOffFw_le : c.verOffFw + 3 ≤ c.versionFrameLen
  verOffHw_le : c.verOffHw + 3 ≤ c.versionFrameLen
  rxBufSize_le : c.rxBufSize ≤ 255
  model_known : (0x01 : Byte) ∈ c.modelSet
  model_unknown : (0x09 : Byte) ∉ c.modelSet
  fw_known : (0x34 : Byte) ∈ c.fwSet
  fw_unknown : (0x99 : Byte) ∉ c.fwSet
  hw_known : (0x00 : Byte) ∈ c.hwSet
  hw_unknown : (0x09 : Byte) ∉ c.hwSet

/-- The block checksum (R8, D8, U1): OPEN, so an uninterpreted total function of the bytes
(log 8, safe). -/
opaque Config.csum16 : List Byte → Half

/-- The class marker that begins every template (R192). -/
inductive ClassMarker
  /-- 0x06, a short command. -/
  | short
  /-- 0x07, a parameterised command. -/
  | param
deriving DecidableEq, Repr, Inhabited

/-- A template (R192): a class marker, a subcommand of one or two bytes, and 0 to N parameter bytes. -/
structure Template where
  cls : ClassMarker
  sub : Byte
  sub2 : Option Byte
  params : List Byte
deriving DecidableEq, Repr, Inhabited

/-- The template parameters of rule R191. -/
inductive TemplateName
  | reset | startRead | beep
  | buffer1 | buffer2
  | flowXonXoff | flowRtsCts
  | verifyChecksum | verifyXor
  | readSingle | readDouble
  | clockCount | displayText | versionQuery
deriving DecidableEq, Repr, Inhabited

/-- The template belongs to a command that has an argument (R191). Only a template without arguments is
fixed at two or three bytes (R192); any other may carry parameter bytes of its own (log 8, safe). -/
def TemplateName.takesArgument : TemplateName → Bool
  | .reset => false
  | .startRead => false
  | .beep => false
  | .buffer1 => true
  | .buffer2 => true
  | .flowXonXoff => true
  | .flowRtsCts => true
  | .verifyChecksum => true
  | .verifyXor => true
  | .readSingle => true
  | .readDouble => true
  | .clockCount => true
  | .displayText => true
  | .versionQuery => false

/-- `TPL_*` (R191, D30): OPEN, no value in the spec (log 8, safe). -/
opaque Config.template : TemplateName → Template

/-- Which `mode` of `CMD_BUFFER_SELECT` selects `TPL_BUFFER_2` (R193, U11): not in the source. -/
opaque Config.selectsBuffer2 : Nat → Bool

/-- Which `mode` of `CMD_VERIFICATION` selects `TPL_VERIFY_XOR` (R193, U11): not in the source. -/
opaque Config.selectsVerifyXor : Nat → Bool

/-- Which `mode` of `CMD_READ_COUNT` selects `TPL_READ_DOUBLE` (R193, U11): not in the source. -/
opaque Config.selectsReadDouble : Nat → Bool

/-- Free value: what a host read of a buffer entry that holds no defined value returns (R28, R37, U3),
a fresh draw for each value of the state's draw counter (log 4, DESIGN CHOICE, safe). -/
opaque Config.freeByte : Nat → Byte

/-- Free value: the received bytes that are pending at power-on (R42, R45, U4; log 7, safe). -/
opaque Config.rxqAtReset : List Byte

end Sys2Proof
end

