-- ==== Sys2Proof/Syntax.lean ====
section
/-! DEFINITION. The syntax: one constructor per row of `spec/opcode_table.json`, and the lines of the
host's notation that stand for the pseudo-operations. -/

namespace Sys2Proof

/-- How a byte of the wire meets the block (`20_memory.md`): the table's wire bytes are used in both
directions (R90), so a wire-byte row carries which of the three events it is. -/
inductive Crossing
  /-- The device puts the byte on the line (`dev_send`, R70). -/
  | sent
  /-- The engine takes the byte from the RX channel (`rx_poll` answers `byte(b)`, R69). -/
  | taken
  /-- The transport accepts the byte the engine offers (`tx_offer` answers `accepted`, R67). -/
  | accepted
deriving DecidableEq, Repr

/-- One constructor per row of the opcode table. -/
inductive Instr
  /-- `NOP`, a write of 0x00 to `CMD` (R181). -/
  | nop
  /-- `EXEC`, 0x01 (R130). -/
  | exec
  /-- `RX_FRAME`, 0x02 (R162). -/
  | rxFrame
  /-- `RX_STATUS`, 0x03 (R163). -/
  | rxStatus
  /-- `RX_VERSION`, 0x04 (R164). -/
  | rxVersion
  /-- `RX_CARD`, 0x05 (R172). -/
  | rxCard
  /-- `FLUSH`, 0x06 (R182). -/
  | flush
  /-- `RESERVED`, 0x07 to 0xFF (R183). -/
  | reserved (op : Byte)
  /-- Wire byte `STX`, 0x02 (R92). -/
  | stx (x : Crossing)
  /-- Wire byte `ETX`, 0x03 (R92). -/
  | etx (x : Crossing)
  /-- Wire byte `ACK`, 0x06 (R102, R103). -/
  | ack (x : Crossing)
  /-- Wire byte `NACK`, 0x15 (R102, R103). -/
  | nack (x : Crossing)
  /-- `CLASS_SHORT`: payload byte 0 is 0x06 (R91). -/
  | classShort
  /-- `CLASS_PARAM`: payload byte 0 is 0x07 (R91). -/
  | classParam
  /-- `COMMAND_FRAME` with payload `p` (R91, R95). -/
  | commandFrame (p : List Byte)
  /-- `REPORT_FRAME` whose checksummed part is `body` (R97, R101). -/
  | reportFrame (body : List Byte)
  /-- `CMD_RESET` (R191). -/
  | cmdReset
  /-- `CMD_START_READ` (R191). -/
  | cmdStartRead
  /-- `CMD_BEEP` (R191). -/
  | cmdBeep
  /-- `CMD_BUFFER_SELECT` (R191, R193). -/
  | cmdBufferSelect (mode : Nat)
  /-- `CMD_FLOW_CONTROL` (R191, R193). -/
  | cmdFlowControl (mode : Nat)
  /-- `CMD_VERIFICATION` (R191, R193). -/
  | cmdVerification (mode : Nat)
  /-- `CMD_READ_COUNT` (R191, R193). -/
  | cmdReadCount (mode : Nat)
  /-- `CMD_CLOCK_COUNT`: the count as the one or more parameter bytes the device wants (R191, N9). -/
  | cmdClockCount (first : Byte) (more : List Byte)
  /-- `CMD_DISPLAY_TEXT` (R191, R194). -/
  | cmdDisplayText (text : List Byte)
  /-- `CMD_VERSION_QUERY` (R191). -/
  | cmdVersionQuery
deriving DecidableEq, Repr

/-- A pseudo-operation line of the host's notation (R113, R191). Its encoding is OPEN (N9), so the
line itself, name and arguments, is what the host's program holds. -/
inductive PseudoLine
  | reset
  | startRead
  | beep
  | bufferSelect (mode : Nat)
  | flowControl (mode : Nat)
  | verification (mode : Nat)
  | readCount (mode : Nat)
  | clockCount (first : Byte) (more : List Byte)
  | displayText (text : List Byte)
  | versionQuery
deriving DecidableEq, Repr

end Sys2Proof
end

