-- ==== Sys2Proof/WellFormed.lean ====
section
/-! DEFINITION. Which terms of `Instr` stand for an encoding of the opcode table. -/

namespace Sys2Proof

/-- The table's bounds: a reserved code is 0x07 to 0xFF (R112), a command frame carries at most
`MAX_PAYLOAD` bytes (R91), a report frame has at most `RX_BUF_SIZE` bytes, trailer included
(`opcode_table.json`, R150). -/
def Instr.wellFormed (c : Config) : Instr → Bool
  | .nop => true
  | .exec => true
  | .rxFrame => true
  | .rxStatus => true
  | .rxVersion => true
  | .rxCard => true
  | .flush => true
  | .reserved op => decide (7 ≤ op.toNat)
  | .stx _ => true
  | .etx _ => true
  | .ack _ => true
  | .nack _ => true
  | .classShort => true
  | .classParam => true
  | .commandFrame p => decide (p.length ≤ c.maxPayload)
  | .reportFrame body => decide (body.length + 2 ≤ c.rxBufSize)
  | .cmdReset => true
  | .cmdStartRead => true
  | .cmdBeep => true
  | .cmdBufferSelect _ => true
  | .cmdFlowControl _ => true
  | .cmdVerification _ => true
  | .cmdReadCount _ => true
  | .cmdClockCount _ _ => true
  | .cmdDisplayText _ => true
  | .cmdVersionQuery => true

end Sys2Proof
end

