-- ==== Sys2Proof/Decode.lean ====
section
/-! DEFINITION. Encodings (`30_encoding.md`, `opcode_table.json`): the checksum's byte order, the two
frame formats, the decoder and the encoder, and the host's table words. -/

namespace Sys2Proof

/-! ## Byte order and frames -/

/-- `hi8(c) = c[15:8]` (R15). -/
def hi8 (c : Half) : Byte := c.extractLsb' 8 8

/-- `lo8(c) = c[7:0]` (R15). -/
def lo8 (c : Half) : Byte := c.extractLsb' 0 8

/-- `{t0, t1} = t0 * 256 + t1`, the received trailer as a number (R73, R97). -/
def be16 (t0 t1 : Byte) : Half := t0 ++ t1

/-- The trailer of a checksum, high byte first (R73). -/
def trailer (c : Half) : List Byte := [hi8 c, lo8 c]

/-- `tx_frame(p)` (R95): the checksum covers the payload only (R96). -/
def txFrame (p : List Byte) : List Byte :=
  [0x02] ++ p ++ [0x03] ++ trailer (Config.csum16 p)

/-- A report frame over `body` (R101): the checksum covers the whole frame less its trailer (R97). -/
def rxFrame (body : List Byte) : List Byte := body ++ trailer (Config.csum16 body)

/-- `v[7:0]` of a written value (R63, R110). -/
def lowByte (v : Word) : Byte := v.extractLsb' 0 8

/-- The class marker's byte (R91, R192). -/
def ClassMarker.byte : ClassMarker → Byte
  | .short => 0x06
  | .param => 0x07

/-! ## What can stand where an instruction is read -/

/-- An encoded instruction, in the format column of the opcode table. -/
inductive Encoded
  /-- Format `CMD`: the 32-bit value written to register index 0x000. -/
  | cmd (w : Word)
  /-- Format `WIRE_BYTE`, with the event that moves the byte. -/
  | wireByte (x : Crossing) (b : Byte)
  /-- Format `PAYLOAD_BYTE0`: the byte written to `TXBUF[0]`. -/
  | payloadByte0 (b : Byte)
  /-- Format `WIRE_FRAME`, host to device. -/
  | txFrame (f : List Byte)
  /-- Format `WIRE_FRAME`, device to host. -/
  | rxFrame (f : List Byte)
  /-- Format `PSEUDO`: a line of the host's program. -/
  | pseudo (l : PseudoLine)
deriving DecidableEq, Repr

/-- Why an encoding is no row of the opcode table. -/
inductive Reject
  /-- A wire byte other than 0x02, 0x03, 0x06, 0x15 (R112). -/
  | notAWireByteRow (b : Byte)
  /-- Payload byte 0 is neither 0x06 nor 0x07 (R112). -/
  | notAClassMarker (b : Byte)
  /-- Shorter than the shortest frame of its format (R90, R97). -/
  | frameTooShort
  /-- Longer than the longest frame of its format (R90, R150). -/
  | frameTooLong
  /-- A command frame that does not begin with 0x02 (R92). -/
  | stxMissing
  /-- A command frame without 0x03 before its trailer (R92). -/
  | etxMissing
  /-- The trailer is not the checksum of the span (R96, R97). -/
  | badTrailer
deriving DecidableEq, Repr

/-! ## The decoder -/

/-- The operation map (R111); bits 31:8 are ignored (R110). -/
def decodeCmd (w : Word) : Instr :=
  match (lowByte w).toNat with
  | 0 => .nop
  | 1 => .exec
  | 2 => .rxFrame
  | 3 => .rxStatus
  | 4 => .rxVersion
  | 5 => .rxCard
  | 6 => .flush
  | _ => .reserved (lowByte w)

/-- The wire-byte rows of the table (R92, R102). -/
def decodeWireByte (x : Crossing) (b : Byte) : Except Reject Instr :=
  match b.toNat with
  | 0x02 => .ok (.stx x)
  | 0x03 => .ok (.etx x)
  | 0x06 => .ok (.ack x)
  | 0x15 => .ok (.nack x)
  | _ => .error (.notAWireByteRow b)

/-- The class-marker rows (R91). -/
def decodePayloadByte0 (b : Byte) : Except Reject Instr :=
  match b.toNat with
  | 0x06 => .ok .classShort
  | 0x07 => .ok .classParam
  | _ => .error (.notAClassMarker b)

/-- The command-frame row, by position and length only (R91, R94). -/
def decodeTxFrame (c : Config) (f : List Byte) : Except Reject Instr :=
  let n := f.length - 4
  let p := (f.drop 1).take n
  if f.length < 4 then .error .frameTooShort
  else if c.maxPayload < n then .error .frameTooLong
  else if f.take 1 ≠ [0x02] then .error .stxMissing
  else if (f.drop (n + 1)).take 1 ≠ [0x03] then .error .etxMissing
  else if f.drop (n + 2) ≠ trailer (Config.csum16 p) then .error .badTrailer
  else .ok (.commandFrame p)

/-- The report-frame row: no delimiter is checked (R100). -/
def decodeRxFrame (c : Config) (f : List Byte) : Except Reject Instr :=
  let body := f.take (f.length - 2)
  if f.length < 2 then .error .frameTooShort
  else if c.rxBufSize < f.length then .error .frameTooLong
  else if f.drop (f.length - 2) ≠ trailer (Config.csum16 body) then .error .badTrailer
  else .ok (.reportFrame body)

/-- The pseudo-operation rows (R191). -/
def decodePseudo : PseudoLine → Instr
  | .reset => .cmdReset
  | .startRead => .cmdStartRead
  | .beep => .cmdBeep
  | .bufferSelect m => .cmdBufferSelect m
  | .flowControl m => .cmdFlowControl m
  | .verification m => .cmdVerification m
  | .readCount m => .cmdReadCount m
  | .clockCount b bs => .cmdClockCount b bs
  | .displayText t => .cmdDisplayText t
  | .versionQuery => .cmdVersionQuery

/-- The decoder: total, and what is no row of the table is rejected by name. -/
def decode (c : Config) : Encoded → Except Reject Instr
  | .cmd w => .ok (decodeCmd w)
  | .wireByte x b => decodeWireByte x b
  | .payloadByte0 b => decodePayloadByte0 b
  | .txFrame f => decodeTxFrame c f
  | .rxFrame f => decodeRxFrame c f
  | .pseudo l => .ok (decodePseudo l)

/-! ## The encoder -/

/-- The encoding the table gives an instruction; the ignored bits 31:8 of a `CMD` word are 0. -/
def encode : Instr → Encoded
  | .nop => .cmd 0x00000000
  | .exec => .cmd 0x00000001
  | .rxFrame => .cmd 0x00000002
  | .rxStatus => .cmd 0x00000003
  | .rxVersion => .cmd 0x00000004
  | .rxCard => .cmd 0x00000005
  | .flush => .cmd 0x00000006
  | .reserved op => .cmd (op.setWidth 32)
  | .stx x => .wireByte x 0x02
  | .etx x => .wireByte x 0x03
  | .ack x => .wireByte x 0x06
  | .nack x => .wireByte x 0x15
  | .classShort => .payloadByte0 0x06
  | .classParam => .payloadByte0 0x07
  | .commandFrame p => .txFrame (txFrame p)
  | .reportFrame body => .rxFrame (rxFrame body)
  | .cmdReset => .pseudo .reset
  | .cmdStartRead => .pseudo .startRead
  | .cmdBeep => .pseudo .beep
  | .cmdBufferSelect m => .pseudo (.bufferSelect m)
  | .cmdFlowControl m => .pseudo (.flowControl m)
  | .cmdVerification m => .pseudo (.verification m)
  | .cmdReadCount m => .pseudo (.readCount m)
  | .cmdClockCount b bs => .pseudo (.clockCount b bs)
  | .cmdDisplayText t => .pseudo (.displayText t)
  | .cmdVersionQuery => .pseudo .versionQuery

/-! ## The host's table words -/

/-- The encoding a table word of `nbits` bits stands for. A word of more than 8 bits is a `CMD` value;
a bare byte is a wire byte coming from the device where the table has such a row (R192: a bare 0x06 is
the acknowledgment), else payload byte 0 where it is a class marker, else a `CMD` value whose other
bits are 0 (log 15, DEDUCED, safe). -/
def tableEncoded (nbits w : Nat) : Encoded :=
  let v := w % 2 ^ nbits
  if 8 < nbits then .cmd (BitVec.ofNat 32 v)
  else if v = 0x02 ∨ v = 0x03 ∨ v = 0x06 ∨ v = 0x15 then .wireByte .sent (BitVec.ofNat 8 v)
  else if v = 0x07 then .payloadByte0 (BitVec.ofNat 8 v)
  else .cmd (BitVec.ofNat 32 v)

/-- What the decoder reads from a table word; a word wider than the 32-bit `CMD` value has no row. -/
def decodeTableWord (nbits w : Nat) : Option Instr :=
  if 32 < nbits then none
  else
    match decode Config.standard (tableEncoded nbits w) with
    | .ok i => some i
    | .error _ => none

end Sys2Proof
end

