-- ==== Sys2Proof/Machine/State.lean ====
section
/-! DEFINITION. The state: the tuple of rule R20 as plain data, the configuration, and the other agents
of rule R5 (the host's program, the schedule of their moves) as data the step reads. -/

namespace Sys2Proof.Machine

/-- `FSM` (R21), the program counter of this hardware. -/
inductive Fsm
  | idle | sending | awaitAck | receiving | replying
deriving DecidableEq, Repr

/-- The result codes (R31); 12 to 15 are never produced (U9) and do not exist here. -/
inductive ResultCode
  | none | acked | nacked | violation | timedOut | transportFailed | encodingError
  | rxOk | checksumMismatch | notImplemented | illegalOp | flushed
deriving DecidableEq, Repr

/-- `DEVSTAT.CODE` (R38); 6 and 7 are never produced (U9). -/
inductive StatusCode
  | ok | ramError | waiting | wrongRead | wrongClock | error
deriving DecidableEq, Repr

/-- `DEVSTAT` (R38). -/
structure DevStat where
  code : StatusCode
  valid : Bool
  raw : Byte
deriving DecidableEq, Repr

/-- `VERSION` (R39). -/
structure Version where
  model : Byte
  fw : Byte
  hw : Byte
  modelKnown : Bool
  fwKnown : Bool
  hwKnown : Bool
  valid : Bool
deriving DecidableEq, Repr

/-- A register of the map (R61). -/
inductive Reg
  | cmd | status | txlen | rxlen | timeout | csumTx | csumRx | count | ack | devstat | version | tmr
  | txbuf (i : Nat)
  | rxbuf (i : Nat)
  | reserved
deriving DecidableEq, Repr

/-- A byte buffer (`TXBUF`, `RXBUF`), the memory of this block (R17, R60): the entries that hold a
defined value, addresses strictly rising. An entry that is not listed holds no defined value (R28, R37; log 5,
DESIGN CHOICE, safe). -/
abbrev Memory := List Host.Cell

/-- A line of the host's program (R113). -/
inductive HostLine
  /-- `WR index, value`; a mnemonic is `WR CMD, op`. -/
  | wr (a : BitVec 10) (v : Word)
  /-- `RD index`. -/
  | rd (a : BitVec 10)
  /-- `WAIT`: repeat `RD STATUS` until `DONE = 1`. -/
  | wait
  /-- A device command of the catalogue (R190, R191). -/
  | pseudo (l : PseudoLine)
deriving DecidableEq, Repr

/-- A move of one agent (R5, R113). The schedule lists them in the one total order of rule R78. -/
inductive Move
  /-- The host performs the next line of its program. -/
  | host
  /-- The device puts a byte on the line (R70). -/
  | dev (b : Byte)
  /-- The device puts a run of bytes on the line, `DEV b0 b1 ...` (R113): the first now, the others as its next
  moves (log 10, DESIGN CHOICE, safe). -/
  | devFrame (f : List Byte)
  /-- The tick source delivers a tick (R41). -/
  | tick
  /-- The transport accepts the pending offer (R67). -/
  | txAccept
  /-- The transport accepts every byte the frame in flight still has (R67, R133): the one on offer now, the others
  as its next moves (log 10, DESIGN CHOICE, safe). -/
  | txFrame
  /-- The transport fails the pending offer, `TXFAIL` (R67). -/
  | txFail
  /-- The engine polls and no read error is signalled (R69). -/
  | rxPoll
  /-- The engine polls and the transport signals a read error, `RXERR` (R69). -/
  | rxErr
  /-- The reset input is applied (R230). -/
  | reset
deriving DecidableEq, Repr

/-- Why the machine stops with a fault. -/
inductive Fault
  /-- Raised by the launch of `EXEC` when an entry `TXBUF[i]`, `i < TXLEN <= MAX_PAYLOAD`, has not been
  written since reset: "A model faults or refuses such a launch
  rather than pick a value" (R237, U2). Safe: the hardware goes on with unspecified bytes. -/
  | txbufUnwritten
deriving DecidableEq, Repr

/-- Why an instruction has no meaning. -/
inductive Refusal
  /-- Raised by `exec` for an instruction that has no meaning yet; no arm does so now. Safe. -/
  | notModelled (mnemonic : String)
deriving DecidableEq, Repr

/-- The whole state. -/
structure State where
  /-- The parameters (R14), constant: no step writes this field (log 1, DESIGN CHOICE, safe). -/
  cfg : Config
  /-- `FSM` (R21). -/
  fsm : Fsm
  /-- `IDX` (R23). -/
  idx : BitVec 8
  /-- `OPR` (R24). -/
  opr : Byte
  /-- `TXLEN` (R25). -/
  txlen : BitVec 8
  /-- `RXLEN` (R26). -/
  rxlen : BitVec 8
  /-- `TIMEOUT` (R27). -/
  timeout : Word
  /-- `TXBUF` (R28). -/
  txbuf : Memory
  /-- `DONE` (R31). -/
  done : Bool
  /-- `RESULT` (R31). -/
  result : ResultCode
  /-- `CSUM_TX` (R34). -/
  csumTx : Half
  /-- `CSUM_CALC` (R35). -/
  csumCalc : Half
  /-- `CSUM_WIRE` (R35). -/
  csumWire : Half
  /-- `TXCNT` (R36). -/
  txcnt : BitVec 8
  /-- `RXCNT` (R36). -/
  rxcnt : BitVec 8
  /-- `ACKBYTE` (R33). -/
  ackbyte : Byte
  /-- `ACKVALID` (R33). -/
  ackvalid : Bool
  /-- `DEVSTAT` (R38). -/
  devstat : DevStat
  /-- `VERSION` (R39). -/
  version : Version
  /-- `RXBUF` (R37). -/
  rxbuf : Memory
  /-- `TMR` (R40). -/
  tmr : Word
  /-- `rxq` (R42): received bytes not yet taken, oldest first. -/
  rxq : List Byte
  /-- `wire_tx` (R43): bytes accepted since reset, oldest first; no rule reads it. -/
  wireTx : List Byte
  /-- The host agent: the lines of its program it has not yet performed (log 2, DESIGN CHOICE, safe). -/
  host : List HostLine
  /-- The host agent: the values its reads have returned, oldest first; nothing in the block reads it
  (log 6, DESIGN CHOICE, safe). -/
  hostRd : List Word
  /-- The moves still to come, in the total order of rule R78 (log 2, DESIGN CHOICE, safe). -/
  sched : List Move
  /-- The model's own draw counter for `Config.freeByte` (log 4, DESIGN CHOICE, safe). -/
  free : Nat
deriving DecidableEq, Repr

/-- Every element at its reset value (R45, R230), for a configuration and the bytes that happen to be
pending (R42: they are the transport's). -/
def State.powerOn (c : Config) (q : List Byte) : State where
  cfg := c
  fsm := .idle
  idx := 0
  opr := 0
  txlen := 0
  rxlen := 0
  timeout := c.timeoutDefault
  txbuf := []
  done := false
  result := .none
  csumTx := 0
  csumCalc := 0
  csumWire := 0
  txcnt := 0
  rxcnt := 0
  ackbyte := 0
  ackvalid := false
  devstat := { code := .ok, valid := false, raw := 0 }
  version :=
    { model := 0, fw := 0, hw := 0, modelKnown := false, fwKnown := false, hwKnown := false,
      valid := false }
  rxbuf := []
  tmr := 0
  rxq := q
  wireTx := []
  host := []
  hostRd := []
  sched := []
  free := 0

/-- The machine right after reset: the values of rule R45, `rxq` a free value (U4). -/
def State.reset : State := State.powerOn Config.standard Config.rxqAtReset

end Sys2Proof.Machine
end

