-- ==== Sys2Proof/Machine/Ops.lean ====
section
/-! DEFINITION. The named operations over the buffers, the channels, the timer and the result registers;
`finish`, which stands for taking an exception, and `clearResults`, which stands for the return from it. -/

namespace Sys2Proof.Machine

/-! ## The byte buffers -/

/-- `x[i]` (R17): the defined value of entry `i`, if it holds one. -/
def Memory.read : Memory → Nat → Option Byte
  | [], _ => none
  | (k, v) :: m, a => if a = k then some v else Memory.read m a

/-- `x[i] <- v` (R17), keeping the addresses strictly rising. -/
def Memory.write : Memory → Nat → Byte → Memory
  | [], a, b => [(a, b)]
  | (k, v) :: m, a, b =>
    if a < k then (a, b) :: (k, v) :: m
    else if a = k then (a, b) :: m
    else (k, v) :: Memory.write m a b

/-- Every listed address is above `lo`, and the addresses rise strictly. -/
def Memory.risesFrom : Nat → Memory → Bool
  | _, [] => true
  | lo, (k, _) :: m => decide (lo ≤ k) && Memory.risesFrom (k + 1) m

/-- The canonical form: addresses strictly rising. An unlisted address has no value, so no listed entry
can equal what an unlisted address reads as. -/
def Memory.wf (m : Memory) : Bool := Memory.risesFrom 0 m

/-- Entry `i`, or `d` where it holds no defined value. -/
def Memory.readD (m : Memory) (d : Byte) (i : Nat) : Byte := (Memory.read m i).getD d

/-- Entries `0 .. n-1` as a sequence (`x[0 .. n-1]`, R16), `d` standing for an undefined one. -/
def Memory.bytes (m : Memory) (d : Byte) (n : Nat) : List Byte :=
  (List.range n).map (Memory.readD m d)

/-- Entries `0 .. n-1` all hold defined values. -/
def Memory.defined (m : Memory) (n : Nat) : Bool :=
  (List.range n).all fun i => (Memory.read m i).isSome

/-! ## The terminal step and the launch -/

/-- `finish(code)` (R204): the one way an operation ends, what stands for taking an exception. It
transfers control nowhere; everything else keeps its value. -/
def finish (code : ResultCode) (s : State) : State :=
  { s with result := code, done := true, idx := 0, fsm := .idle }

/-- `clear_results()` (R46), the first action of every launch other than `NOP`: what stands for the
return from a terminal (R206). -/
def clearResults (s : State) : State :=
  { s with
    done := false, result := .none
    txcnt := 0, rxcnt := 0, idx := 0
    ackbyte := 0, ackvalid := false
    csumTx := 0, csumCalc := 0, csumWire := 0
    devstat := { code := .ok, valid := false, raw := 0 }
    version :=
      { model := 0, fw := 0, hw := 0, modelKnown := false, fwKnown := false, hwKnown := false,
        valid := false } }

/-- The common head of a launch (R110): `clear_results(); OPR <- op`. -/
def beginOp (op : Byte) (s : State) : State :=
  { clearResults s with opr := op }

/-- An operation is launched only while `FSM = IDLE`; otherwise the write to `CMD` is ignored (R64). -/
def whenIdle (s : State) (k : Host.Outcome State Fault Refusal) : Host.Outcome State Fault Refusal :=
  if s.fsm = .idle then k else .next s

/-! ## The channels -/

/-- `rx_flush()` (R71). -/
def rxFlush (s : State) : State := { s with rxq := [] }

/-- `dev_send(b)` (R70). -/
def devSend (b : Byte) (s : State) : State := { s with rxq := s.rxq ++ [b] }

/-- `DEV b0 b1 ...` (R113): the first byte goes onto the line in this step, and the others are the device's
next moves, one byte a step (R76; log 10, DESIGN CHOICE, safe). -/
def devSendRun (f : List Byte) (s : State) : State :=
  match f with
  | [] => s
  | b :: bs => { devSend b s with sched := bs.map .dev ++ s.sched }

/-- The effect of `rx_poll()` answering `byte(b)` with `rxq = [b] || rest` (R69). -/
def takeByte (rest : List Byte) (s : State) : State :=
  { s with rxq := rest, rxcnt := s.rxcnt + 1 }

/-- The effect of `tx_offer(b)` answering `accepted` (R67). -/
def logTx (b : Byte) (s : State) : State :=
  { s with wireTx := s.wireTx ++ [b], txcnt := s.txcnt + 1 }

/-! ## The timer -/

/-- A tick (R41): it counts down only while a wait is running, and saturates at 0. -/
def tick (s : State) : State :=
  match s.fsm with
  | .awaitAck | .receiving => if s.tmr = 0 then s else { s with tmr := s.tmr - 1 }
  | .idle | .sending | .replying => s

/-! ## Reset -/

/-- The reset input (R230, R231): every element of the block at its reset value, in any state. It does
not touch `rxq`, the transport or the device (R231, R232; log 7, DEDUCED, unsafe); the other agents go on
(log 2). -/
def resetPin (s : State) : State :=
  { State.powerOn s.cfg s.rxq with
    host := s.host, hostRd := s.hostRd, sched := s.sched, free := s.free }

end Sys2Proof.Machine
end

