-- ==== Sys2Proof/Machine/Control.lean ====
section
/-! DEFINITION. The control operations `NOP` and `FLUSH` and the reserved codes (`42_control.md`). -/

namespace Sys2Proof.Machine

/-- `NOP` (R181): no change at all, busy or not. -/
def execNop (s : State) : Host.Outcome State Fault Refusal := .next s

/-- `FLUSH` (R182). -/
def execFlush (s : State) : Host.Outcome State Fault Refusal :=
  whenIdle s (.next (finish .flushed (rxFlush (beginOp 0x06 s))))

/-- `RESERVED(op)` (R183). -/
def execReserved (op : Byte) (s : State) : Host.Outcome State Fault Refusal :=
  whenIdle s (.next (finish .illegalOp (beginOp op s)))

end Sys2Proof.Machine
end

