-- ==== Sys2Proof/Machine/Flags.lean ====
section
/-! DEFINITION. The flags that are functions of the state, the numbering of the codes, and the packing
of the registers of the map into 32-bit words. -/

namespace Sys2Proof.Machine

/-- The value of `FSM` (R21). -/
def Fsm.bits : Fsm → BitVec 3
  | .idle => 0
  | .sending => 1
  | .awaitAck => 2
  | .receiving => 3
  | .replying => 4

/-- The value of a result code (R31). -/
def ResultCode.bits : ResultCode → BitVec 4
  | .none => 0
  | .acked => 1
  | .nacked => 2
  | .violation => 3
  | .timedOut => 4
  | .transportFailed => 5
  | .encodingError => 6
  | .rxOk => 7
  | .checksumMismatch => 8
  | .notImplemented => 9
  | .illegalOp => 10
  | .flushed => 11

/-- The value of `DEVSTAT.CODE` (R38). -/
def StatusCode.bits : StatusCode → BitVec 3
  | .ok => 0
  | .ramError => 1
  | .waiting => 2
  | .wrongRead => 3
  | .wrongClock => 4
  | .error => 5

/-- `BUSY` (R30). -/
def busy (s : State) : Bool := decide (s.fsm ≠ .idle)

/-- `OK` of a result code (R32). -/
def ResultCode.isOk : ResultCode → Bool
  | .acked => true
  | .rxOk => true
  | .flushed => true
  | .none => false
  | .nacked => false
  | .violation => false
  | .timedOut => false
  | .transportFailed => false
  | .encodingError => false
  | .checksumMismatch => false
  | .notImplemented => false
  | .illegalOp => false

/-- `OK` (R32). -/
def okFlag (s : State) : Bool := s.result.isOk

/-- The `STATUS` register (R61). -/
def statusWord (s : State) : Word :=
  0#8 ++ s.opr ++ 0#5 ++ s.fsm.bits ++ s.result.bits ++ 0#1 ++
    BitVec.ofBool (okFlag s) ++ BitVec.ofBool s.done ++ BitVec.ofBool (busy s)

/-- The `CSUM_RX` register (R61). -/
def csumRxWord (s : State) : Word := s.csumCalc ++ s.csumWire

/-- The `COUNT` register (R61). -/
def countWord (s : State) : Word := 0#16 ++ s.rxcnt ++ s.txcnt

/-- The `ACK` register (R61). -/
def ackWord (s : State) : Word := 0#23 ++ BitVec.ofBool s.ackvalid ++ s.ackbyte

/-- The `DEVSTAT` register (R61). -/
def devstatWord (d : DevStat) : Word :=
  0#16 ++ d.raw ++ 0#4 ++ BitVec.ofBool d.valid ++ d.code.bits

/-- The `VERSION` register (R61). -/
def versionWord (v : Version) : Word :=
  BitVec.ofBool v.valid ++ 0#4 ++ BitVec.ofBool v.hwKnown ++ BitVec.ofBool v.fwKnown ++
    BitVec.ofBool v.modelKnown ++ v.hw ++ v.fw ++ v.model

end Sys2Proof.Machine
end

