-- ==== Sys2Proof/Machine/Operands.lean ====
section
/-! DEFINITION. What the operations compute from their operands: the frame offered, the frame length,
the checksum spans, the classification of a byte and the payload decoders (`30_encoding.md`). -/

namespace Sys2Proof.Machine

/-- The value an undefined buffer entry stands for; no reachable state of the engine reads one
(log 19, DESIGN CHOICE, safe). -/
def undefinedByte (s : State) : Byte := Config.freeByte s.free

/-! ## The outbound frame -/

/-- `TXBUF[0 .. TXLEN-1]`, the opcode bytes of the frame (R25, R95). -/
def payload (s : State) : List Byte :=
  Memory.bytes s.txbuf (undefinedByte s) s.txlen.toNat

/-- `tx_byte(i)` (R95). -/
def txByte (s : State) (i : Nat) : Byte :=
  if i = 0 then 0x02
  else if i ≤ s.txlen.toNat then Memory.readD s.txbuf (undefinedByte s) (i - 1)
  else if i = s.txlen.toNat + 1 then 0x03
  else if i = s.txlen.toNat + 2 then hi8 s.csumTx
  else lo8 s.csumTx

/-- The bytes `tx_byte(0) .. tx_byte(TXLEN+3)` the engine offers in one `EXEC` (R130). -/
def offeredFrame (s : State) : List Byte :=
  (List.range (s.txlen.toNat + 4)).map (txByte s)

/-! ## The inbound frame -/

/-- The frame length `L` of a receive operation, by `OPR` (R150); no other code is in flight in
`RECEIVING` or `REPLYING` (R24). -/
def frameLen (s : State) : Nat :=
  match s.opr.toNat with
  | 0x02 => s.rxlen.toNat
  | 0x03 => s.cfg.statusFrameLen
  | 0x04 => s.cfg.versionFrameLen
  | _ => 0

/-- `verify(r)` (R97): `(match, calc, wire)`. The span is every byte but the last two, delimiters
included, and no delimiter is checked (R100). -/
def verify (r : List Byte) : Bool × Half × Half :=
  let recomputed := Config.csum16 (r.take (r.length - 2))
  let onWire := be16 ((r.drop (r.length - 2)).headD 0) ((r.drop (r.length - 1)).headD 0)
  (decide (recomputed = onWire), recomputed, onWire)

/-- `RXBUF[0 .. n-1]` (R37). -/
def received (s : State) (n : Nat) : List Byte :=
  Memory.bytes s.rxbuf (undefinedByte s) n

/-- `reply(match)` (R103). -/
def reply (matched : Bool) : Byte := if matched then 0x06 else 0x15

/-- The verification result in `REPLYING` and after (R155). -/
def matched (s : State) : Bool := decide (s.csumCalc = s.csumWire)

/-! ## The byte on offer -/

/-- The byte the engine offers, where it offers one (R132, R156). -/
def offered (s : State) : Option Byte :=
  match s.fsm with
  | .sending => some (txByte s s.idx.toNat)
  | .replying => some (reply (matched s))
  | .idle => none
  | .awaitAck => none
  | .receiving => none

/-- The engine polls the RX channel (R69). -/
def polling (s : State) : Bool :=
  match s.fsm with
  | .awaitAck => true
  | .receiving => true
  | .idle => false
  | .sending => false
  | .replying => false

/-! ## Classification and decoding -/

/-- `classify(b)` (R102). -/
def classify (b : Byte) : ResultCode :=
  if b = 0x06 then .acked
  else if b = 0x15 then .nacked
  else .violation

/-- `decode_status(s)` (R104): the named bits in the spec's order, first match wins. -/
def decodeStatus (c : Config) (b : Byte) : StatusCode :=
  if b &&& c.maskRam ≠ 0 then .ramError
  else if b &&& c.maskWait ≠ 0 then .waiting
  else if b &&& c.maskWrongRead ≠ 0 then .wrongRead
  else if b &&& c.maskWrongClock ≠ 0 then .wrongClock
  else .ok

/-- `decode_version(m, f, h)` (R106), with the `VALID` bit of rule R165. -/
def decodeVersion (c : Config) (m f h : Byte) : Version where
  model := m
  fw := f
  hw := h
  modelKnown := decide (m ∈ c.modelSet)
  fwKnown := decide (f ∈ c.fwSet)
  hwKnown := decide (h ∈ c.hwSet)
  valid := true

end Sys2Proof.Machine
end

