-- ==== Sys2Proof/Machine/Registers.lean ====
section
/-! DEFINITION. The register space (`20_memory.md` section 1): the map, reads and writes, and
the host lines that perform them. -/

namespace Sys2Proof.Machine

/-- The register map (R61). -/
def regAt (c : Config) (a : BitVec 10) : Reg :=
  match a.toNat with
  | 0x000 => .cmd
  | 0x001 => .status
  | 0x002 => .txlen
  | 0x003 => .rxlen
  | 0x004 => .timeout
  | 0x005 => .csumTx
  | 0x006 => .csumRx
  | 0x007 => .count
  | 0x008 => .ack
  | 0x009 => .devstat
  | 0x00A => .version
  | 0x00B => .tmr
  | n =>
    if 0x100 ≤ n ∧ n < 0x100 + c.maxPayload then .txbuf (n - 0x100)
    else if 0x200 ≤ n ∧ n < 0x200 + c.rxBufSize then .rxbuf (n - 0x200)
    else .reserved

/-- The value a read returns (R62): the fields placed as the map says, every other bit 0. A buffer
entry without a defined value (R28, R37, U3) returns a free value. -/
def readReg (s : State) : Reg → Word
  | .cmd => 0
  | .status => statusWord s
  | .txlen => s.txlen.setWidth 32
  | .rxlen => s.rxlen.setWidth 32
  | .timeout => s.timeout
  | .csumTx => s.csumTx.setWidth 32
  | .csumRx => csumRxWord s
  | .count => countWord s
  | .ack => ackWord s
  | .devstat => devstatWord s.devstat
  | .version => versionWord s.version
  | .tmr => s.tmr
  | .txbuf i => (Memory.readD s.txbuf (Config.freeByte s.free) i).setWidth 32
  | .rxbuf i =>
    if i < s.rxcnt.toNat then (Memory.readD s.rxbuf (Config.freeByte s.free) i).setWidth 32
    else (Config.freeByte s.free).setWidth 32
  | .reserved => 0

/-- The register holds no defined value, so that a read of it draws one: `TXBUF` entries not written
since reset (R28), `RXBUF` entries from `RXCNT` up (R37, U3). -/
def unspecified (s : State) : Reg → Bool
  | .txbuf i => (Memory.read s.txbuf i).isNone
  | .rxbuf i => decide (s.rxcnt.toNat ≤ i) || (Memory.read s.rxbuf i).isNone
  | .cmd => false
  | .status => false
  | .txlen => false
  | .rxlen => false
  | .timeout => false
  | .csumTx => false
  | .csumRx => false
  | .count => false
  | .ack => false
  | .devstat => false
  | .version => false
  | .tmr => false
  | .reserved => false

/-- `RegRead(a)` (R62): the value returned. -/
def regRead (s : State) (a : BitVec 10) : Word := readReg s (regAt s.cfg a)

/-- A host step `RD`: the value goes to the host; no element of the block changes (R62). -/
def hostRead (a : BitVec 10) (s : State) : State :=
  { s with
    hostRd := s.hostRd ++ [regRead s a]
    free := if unspecified s (regAt s.cfg a) then s.free + 1 else s.free }

/-- `RegWrite(a, v)` (R63) to a register other than `CMD` (whose write is a launch, R110): ignored while
`FSM != IDLE` (R64), and by read-only and reserved locations (R65). -/
def writeReg (r : Reg) (v : Word) (s : State) : State :=
  if s.fsm = .idle then
    match r with
    | .txlen => { s with txlen := lowByte v }
    | .rxlen => { s with rxlen := lowByte v }
    | .timeout => { s with timeout := v }
    | .txbuf i => { s with txbuf := Memory.write s.txbuf i (lowByte v) }
    | .cmd => s
    | .status => s
    | .csumTx => s
    | .csumRx => s
    | .count => s
    | .ack => s
    | .devstat => s
    | .version => s
    | .tmr => s
    | .rxbuf _ => s
    | .reserved => s
  else s

/-- `RegWrite(a, v)` for an index other than that of `CMD`. -/
def regWrite (a : BitVec 10) (v : Word) (s : State) : State := writeReg (regAt s.cfg a) v s

/-- The next line of the host's program, where it is a write to an index other than that of `CMD`, a read,
or a `WAIT`, which is one `RD STATUS` and stays until that read finds `DONE = 1` (R113; log 21, DEDUCED,
safe). A write to `CMD` and a device command run their row of the table and not this. -/
def hostLine (s : State) : State :=
  match s.host with
  | [] => s
  | .wr a v :: ls => regWrite a v { s with host := ls }
  | .rd a :: ls => hostRead a { s with host := ls }
  | .wait :: ls => hostRead 0x001 (if s.done then { s with host := ls } else s)
  | .pseudo _ :: ls => { s with host := ls }

end Sys2Proof.Machine
end

