-- ==== Sys2Proof/Machine/DeviceCommands.lean ====
section
/-! DEFINITION. The device command catalogue as host-side pseudo-operations (`43_device_commands.md`). -/

namespace Sys2Proof.Machine

/-- The bytes of a template (R192): the class marker, the subcommand, and the parameter bytes where the
command has an argument. -/
def templateBytes (n : TemplateName) : List Byte :=
  let t := Config.template n
  [t.cls.byte, t.sub] ++ t.sub2.toList ++ (if n.takesArgument then t.params else [])

/-- The lines of rule R190 for the opcode bytes `t`: the writes of `t` to `TXBUF`, the write of `TXLEN`,
`EXEC`, `WAIT` (`result = STATUS.OK` is in the read of `STATUS` that ends it). A byte beyond `MAX_PAYLOAD` has no
register to be written to, and a length beyond the 8 bits of `TXLEN` is written as 255, so that a command that
is too long ends `ENCODING_ERROR` (R194; log 13, DEDUCED, unsafe beyond 255 bytes). -/
def commandLines (c : Config) (t : List Byte) : List HostLine :=
  ((t.take c.maxPayload).mapIdx fun i b => .wr (BitVec.ofNat 10 (0x100 + i)) (b.setWidth 32)) ++
    [.wr 0x002 (BitVec.ofNat 32 (min t.length 255)), .wr 0x000 0x01, .wait]

/-- The pseudo-operation of rule R190 stands for its lines (R113): the host performs the first of them now
and goes on with the others, each a step of its own (R76, R78), so that any other agent's move can come
between them (log 11, DEDUCED, safe). -/
def submit (t : List Byte) (s : State) : Host.Outcome State Fault Refusal :=
  .next (hostLine { s with host := commandLines s.cfg t ++ s.host })

/-- `CMD_RESET` (R191); it has no effect on the block beyond its `EXEC` (R232). -/
def execCmdReset (s : State) : Host.Outcome State Fault Refusal :=
  submit (templateBytes .reset) s

/-- `CMD_START_READ` (R191). -/
def execCmdStartRead (s : State) : Host.Outcome State Fault Refusal :=
  submit (templateBytes .startRead) s

/-- `CMD_BEEP` (R191). -/
def execCmdBeep (s : State) : Host.Outcome State Fault Refusal :=
  submit (templateBytes .beep) s

/-- Which template `CMD_BUFFER_SELECT` submits; the selection is not in the source (R193, U11). -/
def bufferTemplate (mode : Nat) : TemplateName :=
  if Config.selectsBuffer2 mode then .buffer2 else .buffer1

/-- `CMD_BUFFER_SELECT` (R191). -/
def execCmdBufferSelect (mode : Nat) (s : State) : Host.Outcome State Fault Refusal :=
  submit (templateBytes (bufferTemplate mode)) s

/-- Which template `CMD_FLOW_CONTROL` submits (R193): 0 selects XON/XOFF, any other value RTS/CTS. -/
def flowTemplate (mode : Nat) : TemplateName :=
  if mode = 0 then .flowXonXoff else .flowRtsCts

/-- `CMD_FLOW_CONTROL` (R191). -/
def execCmdFlowControl (mode : Nat) (s : State) : Host.Outcome State Fault Refusal :=
  submit (templateBytes (flowTemplate mode)) s

/-- Which template `CMD_VERIFICATION` submits; the selection is not in the source (R193, U11). -/
def verificationTemplate (mode : Nat) : TemplateName :=
  if Config.selectsVerifyXor mode then .verifyXor else .verifyChecksum

/-- `CMD_VERIFICATION` (R191). -/
def execCmdVerification (mode : Nat) (s : State) : Host.Outcome State Fault Refusal :=
  submit (templateBytes (verificationTemplate mode)) s

/-- Which template `CMD_READ_COUNT` submits; the selection is not in the source (R193, U11). -/
def readCountTemplate (mode : Nat) : TemplateName :=
  if Config.selectsReadDouble mode then .readDouble else .readSingle

/-- `CMD_READ_COUNT` (R191). -/
def execCmdReadCount (mode : Nat) (s : State) : Host.Outcome State Fault Refusal :=
  submit (templateBytes (readCountTemplate mode)) s

/-- `CMD_CLOCK_COUNT` (R191): the template with the parameter byte or bytes of the count
(log 12, DESIGN CHOICE, safe). -/
def execCmdClockCount (first : Byte) (more : List Byte) (s : State) :
    Host.Outcome State Fault Refusal :=
  submit (templateBytes .clockCount ++ first :: more) s

/-- `CMD_DISPLAY_TEXT` (R191, R194): the template followed by the text bytes. -/
def execCmdDisplayText (text : List Byte) (s : State) : Host.Outcome State Fault Refusal :=
  submit (templateBytes .displayText ++ text) s

/-- `CMD_VERSION_QUERY` (R191). -/
def execCmdVersionQuery (s : State) : Host.Outcome State Fault Refusal :=
  submit (templateBytes .versionQuery) s

end Sys2Proof.Machine
end

