-- ==== Sys2Proof/Machine/Command.lean ====
section
/-! DEFINITION. The operation `EXEC` and its engine steps (`40_exec.md`). -/

namespace Sys2Proof.Machine

/-- `exec_launch()` (R131). The length is checked first; a payload entry the host has not written since
reset faults (R237, U2; log 3, DESIGN CHOICE, safe); then checksum, flush (R13), `SENDING`. -/
def launchExec (s : State) : Host.Outcome State Fault Refusal :=
  if s.cfg.maxPayload < s.txlen.toNat then .next (finish .encodingError s)
  else if Memory.defined s.txbuf s.txlen.toNat then
    .next
      { s with
        csumTx := Config.csum16 (payload s)
        rxq := if s.cfg.flushOnExec then [] else s.rxq
        idx := 0
        fsm := .sending }
  else .fault .txbufUnwritten

/-- `EXEC` (R130): the launch step; its engine steps are below. -/
def execExec (s : State) : Host.Outcome State Fault Refusal :=
  whenIdle s (launchExec (beginOp 0x01 s))

/-- Step *send-accepted* (R133): the timer is loaded in the step that accepts the last byte. -/
def sendAccepted (s : State) : State :=
  if s.idx.toNat = s.txlen.toNat + 3 then
    { logTx (txByte s s.idx.toNat) s with idx := 0, tmr := s.timeout, fsm := .awaitAck }
  else { logTx (txByte s s.idx.toNat) s with idx := s.idx + 1 }

/-- Step *send-failed* (R134). -/
def sendFailed (s : State) : State := finish .transportFailed s

/-- The bytes `SENDING` still has to offer. -/
def remaining (s : State) : Nat := s.txlen.toNat + 4 - s.idx.toNat

/-- The transport accepts what is left of the frame in flight: the byte on offer in this step, and each
byte after it in a move of its own (R76; log 10, DESIGN CHOICE, safe). -/
def acceptFrame (s : State) : State :=
  if s.fsm = .sending then
    { sendAccepted s with sched := List.replicate (remaining s - 1) .txAccept ++ s.sched }
  else s

/-- Step *ack-byte* (R136). -/
def ackByte (b : Byte) (rest : List Byte) (s : State) : State :=
  finish (classify b) { takeByte rest s with ackbyte := b, ackvalid := true }

/-- Step *ack-error* (R137). -/
def ackError (s : State) : State := finish .transportFailed s

/-- Step *ack-timeout* (R138). -/
def ackTimeout (s : State) : State := finish .timedOut s

end Sys2Proof.Machine
end

