-- ==== Sys2Proof/Machine/Receive.lean ====
section
/-! DEFINITION. The receive operations `RX_FRAME`, `RX_STATUS`, `RX_VERSION`, `RX_CARD` and their engine
steps (`41_receive.md`). -/

namespace Sys2Proof.Machine

/-- `rx_launch(len)` (R151): no flush; the timer is loaded once, here. -/
def launchRx (len : Nat) (s : State) : State :=
  if len < 2 ∨ s.cfg.rxBufSize < len then finish .encodingError s
  else { s with idx := 0, tmr := s.timeout, fsm := .receiving }

/-- `RX_FRAME` (R162): the launch step. -/
def execRxFrame (s : State) : Host.Outcome State Fault Refusal :=
  whenIdle s (.next (launchRx s.rxlen.toNat (beginOp 0x02 s)))

/-- `RX_STATUS` (R163): the launch step. -/
def execRxStatus (s : State) : Host.Outcome State Fault Refusal :=
  whenIdle s (.next (launchRx s.cfg.statusFrameLen (beginOp 0x03 s)))

/-- `RX_VERSION` (R164): the launch step. -/
def execRxVersion (s : State) : Host.Outcome State Fault Refusal :=
  whenIdle s (.next (launchRx s.cfg.versionFrameLen (beginOp 0x04 s)))

/-- `RX_CARD` (R172): it ends `NOT_IMPLEMENTED` in its launch step. -/
def execRxCard (s : State) : Host.Outcome State Fault Refusal :=
  whenIdle s (.next (finish .notImplemented (beginOp 0x05 s)))

/-- `finish_rx(code)` (R159): `RX_STATUS` also reports `ST_ERROR` (R161). -/
def finishRx (code : ResultCode) (s : State) : State :=
  if s.opr = 0x03 then
    finish code { s with devstat := { code := .error, valid := true, raw := 0 } }
  else finish code s

/-- `RXBUF[i]`, read by the decoders (R160, R165). -/
def rxByte (s : State) (i : Nat) : Byte := Memory.readD s.rxbuf (undefinedByte s) i

/-- `decode()` (R157): R160 for `RX_STATUS`, R165 for `RX_VERSION`, nothing for `RX_FRAME`. -/
def decodeReport (s : State) : State :=
  match s.opr.toNat with
  | 0x03 =>
    { s with
      devstat := { code := decodeStatus s.cfg (rxByte s 3), valid := true, raw := rxByte s 3 } }
  | 0x04 =>
    { s with
      version :=
        decodeVersion s.cfg (rxByte s s.cfg.verOffModel) (rxByte s s.cfg.verOffFw)
          (rxByte s s.cfg.verOffHw) }
  | _ => s

/-- Step *recv-byte* (R153); the last byte is verified in the step that takes it (R155). -/
def recvByte (b : Byte) (rest : List Byte) (s : State) : State :=
  let t := { takeByte rest s with rxbuf := Memory.write s.rxbuf s.idx.toNat b }
  if s.idx.toNat + 1 = frameLen s then
    let v := verify (received t (frameLen s))
    { t with csumCalc := v.2.1, csumWire := v.2.2, idx := 0, fsm := .replying }
  else { t with idx := s.idx + 1 }

/-- Step *recv-error* (R154). -/
def recvError (s : State) : State := finishRx .transportFailed s

/-- Step *recv-timeout* (R154). -/
def recvTimeout (s : State) : State := finishRx .timedOut s

/-- Step *reply-accepted* (R157). -/
def replyAccepted (s : State) : State :=
  let t := logTx (reply (matched s)) s
  if matched s then finish .rxOk (decodeReport t) else finishRx .checksumMismatch t

/-- Step *reply-failed* (R158). -/
def replyFailed (s : State) : State := finishRx .transportFailed s

end Sys2Proof.Machine
end

