-- ==== Sys2Proof/Machine/Engine.lean ====
section
/-! DEFINITION. The engine's two actions, the poll and the offer, by its sequencing state. -/

namespace Sys2Proof.Machine

/-- One `rx_poll()` in `AWAIT_ACK` or `RECEIVING` with the priorities of rule R210: a signalled read
error, then a pending byte (R211), then an expired timer, else no step. Elsewhere the engine does not
poll and nothing is latched (R72, R208; log 20, DEDUCED, safe). -/
def poll (err : Bool) (s : State) : State :=
  match s.fsm with
  | .awaitAck =>
    if err then ackError s
    else
      match s.rxq with
      | b :: rest => ackByte b rest s
      | [] => if s.tmr = 0 then ackTimeout s else s
  | .receiving =>
    if err then recvError s
    else
      match s.rxq with
      | b :: rest => recvByte b rest s
      | [] => if s.tmr = 0 then recvTimeout s else s
  | .idle => s
  | .sending => s
  | .replying => s

/-- The transport accepts the pending offer (R67); where nothing is offered nothing happens (R208). -/
def offerAccepted (s : State) : State :=
  match s.fsm with
  | .sending => sendAccepted s
  | .replying => replyAccepted s
  | .idle => s
  | .awaitAck => s
  | .receiving => s

/-- The transport fails the pending offer (R67); where nothing is offered nothing happens (R208). -/
def offerFailed (s : State) : State :=
  match s.fsm with
  | .sending => sendFailed s
  | .replying => replyFailed s
  | .idle => s
  | .awaitAck => s
  | .receiving => s

end Sys2Proof.Machine
end

