-- ==== Sys2Proof/Machine/Wire.lean ====
section
/-! DEFINITION. The rows of the opcode table that are bytes and frames of the wire (`30_encoding.md`
sections 1 to 4) and the class markers of the payload. -/

namespace Sys2Proof.Machine

/-- Byte `b` meets the block in one of the three ways of `Crossing`. What follows depends on the
sequencing state and not on what the byte would mean elsewhere (R94). A byte that is not the one polled
or offered does not move (log 9, DESIGN CHOICE, unsafe off its turn). -/
def crossByte (x : Crossing) (b : Byte) (s : State) : State :=
  match x with
  | .sent => devSend b s
  | .taken => if s.rxq.head? = some b then poll false s else s
  | .accepted => if offered s = some b then offerAccepted s else s

/-- Wire byte `STX` (R92); on reception it is not checked (R100). -/
def execStx (x : Crossing) (s : State) : Host.Outcome State Fault Refusal :=
  .next (crossByte x 0x02 s)

/-- Wire byte `ETX` (R92); on reception it is not checked (R100). -/
def execEtx (x : Crossing) (s : State) : Host.Outcome State Fault Refusal :=
  .next (crossByte x 0x03 s)

/-- Wire byte `ACK`: taken in `AWAIT_ACK` it gives `ACKED` (R102); accepted in `REPLYING` it is the reply
to a frame that verified (R103). -/
def execAck (x : Crossing) (s : State) : Host.Outcome State Fault Refusal :=
  .next (crossByte x 0x06 s)

/-- Wire byte `NACK`: taken in `AWAIT_ACK` it gives `NACKED` (R102); accepted in `REPLYING` it is the reply
to a frame that did not verify (R103). -/
def execNack (x : Crossing) (s : State) : Host.Outcome State Fault Refusal :=
  .next (crossByte x 0x15 s)

/-- `CLASS_SHORT` (R91): the host writes the class marker to `TXBUF[0]` (R28, R63); the block does not
inspect it (R93). -/
def execClassShort (s : State) : Host.Outcome State Fault Refusal :=
  .next (regWrite 0x100 (ClassMarker.short.byte.setWidth 32) s)

/-- `CLASS_PARAM` (R91): the host writes the class marker to `TXBUF[0]` (R28, R63); the block does not
inspect it (R93). -/
def execClassParam (s : State) : Host.Outcome State Fault Refusal :=
  .next (regWrite 0x100 (ClassMarker.param.byte.setWidth 32) s)

/-- `COMMAND_FRAME` (R91): the transport accepts the frame the engine offers, byte by byte (R133): the first
byte in this step, the others in the moves that follow. A frame other than the one on offer does not move
(log 10, DESIGN CHOICE, unsafe off its turn). -/
def execCommandFrame (p : List Byte) (s : State) : Host.Outcome State Fault Refusal :=
  if s.fsm = .sending ∧ s.idx = 0 ∧ offeredFrame s = txFrame p then .next (acceptFrame s)
  else .next s

/-- `REPORT_FRAME` (R101): the device puts the frame on the line, byte by byte (R70, R113); it is received
by the engine's polls (R153; log 10, DESIGN CHOICE, safe). -/
def execReportFrame (body : List Byte) (s : State) : Host.Outcome State Fault Refusal :=
  .next (devSendRun (rxFrame body) s)

end Sys2Proof.Machine
end

