-- ==== Sys2Proof/Machine/Dispatch.lean ====
section
/-! DEFINITION. One arm per instruction. -/

namespace Sys2Proof.Machine

def exec (i : Instr) (s : State) : Host.Outcome State Fault Refusal :=
  match i with
  -- format CMD
  | .nop => Sys2Proof.Machine.execNop s
  | .exec => Sys2Proof.Machine.execExec s
  | .rxFrame => Sys2Proof.Machine.execRxFrame s
  | .rxStatus => Sys2Proof.Machine.execRxStatus s
  | .rxVersion => Sys2Proof.Machine.execRxVersion s
  | .rxCard => Sys2Proof.Machine.execRxCard s
  | .flush => Sys2Proof.Machine.execFlush s
  | .reserved op => Sys2Proof.Machine.execReserved op s
  -- format WIRE_BYTE
  | .stx x => Sys2Proof.Machine.execStx x s
  | .etx x => Sys2Proof.Machine.execEtx x s
  | .ack x => Sys2Proof.Machine.execAck x s
  | .nack x => Sys2Proof.Machine.execNack x s
  -- format PAYLOAD_BYTE0
  | .classShort => Sys2Proof.Machine.execClassShort s
  | .classParam => Sys2Proof.Machine.execClassParam s
  -- format WIRE_FRAME
  | .commandFrame p => Sys2Proof.Machine.execCommandFrame p s
  | .reportFrame body => Sys2Proof.Machine.execReportFrame body s
  -- format PSEUDO
  | .cmdReset => Sys2Proof.Machine.execCmdReset s
  | .cmdStartRead => Sys2Proof.Machine.execCmdStartRead s
  | .cmdBeep => Sys2Proof.Machine.execCmdBeep s
  | .cmdBufferSelect mode => Sys2Proof.Machine.execCmdBufferSelect mode s
  | .cmdFlowControl mode => Sys2Proof.Machine.execCmdFlowControl mode s
  | .cmdVerification mode => Sys2Proof.Machine.execCmdVerification mode s
  | .cmdReadCount mode => Sys2Proof.Machine.execCmdReadCount mode s
  | .cmdClockCount first more => Sys2Proof.Machine.execCmdClockCount first more s
  | .cmdDisplayText text => Sys2Proof.Machine.execCmdDisplayText text s
  | .cmdVersionQuery => Sys2Proof.Machine.execCmdVersionQuery s

end Sys2Proof.Machine
end

