-- ==== Sys2Proof/Machine/Fetch.lean ====
section
/-! DEFINITION. What the next move reads as an instruction, the moves that carry none, and where the host
places a table word. -/

namespace Sys2Proof.Machine

/-- The encoded instruction a line of the host's program carries: a write to `CMD` (R110), a write to
payload byte 0 (R91), a device command (R190). -/
def fetchLine (c : Config) : HostLine → Option Encoded
  | .wr a v =>
    match regAt c a with
    | .cmd => some (.cmd v)
    | .txbuf 0 => some (.payloadByte0 (lowByte v))
    | _ => none
  | .rd _ => none
  | .wait => none
  | .pseudo l => some (.pseudo l)

/-- The encoded instruction the next move carries, if it carries one: a host line, a byte or frame the
device sends, the byte the engine takes, the byte or frame the transport accepts. -/
def fetch (s : State) : Option Encoded :=
  match s.sched with
  | [] => none
  | .host :: _ => s.host.head?.bind (fetchLine s.cfg)
  | .dev b :: _ => some (.wireByte .sent b)
  | .devFrame f :: _ => some (.rxFrame f)
  | .txAccept :: _ => (offered s).map (.wireByte .accepted)
  | .txFrame :: _ => if s.fsm = .sending ∧ s.idx = 0 then some (.txFrame (offeredFrame s)) else none
  | .rxPoll :: _ => if polling s then s.rxq.head?.map (.wireByte .taken) else none
  | .tick :: _ => none
  | .txFail :: _ => none
  | .rxErr :: _ => none
  | .reset :: _ => none

/-- Past a move that carried an instruction: the move leaves the schedule, and a host line the host's
program. -/
def advance (s : State) : State :=
  match s.sched with
  | [] => s
  | .host :: ms => { s with sched := ms, host := s.host.tail }
  | _ :: ms => { s with sched := ms }

/-- A byte or frame that is no row of the opcode table moves like any other (R93, R94, R100). -/
def crossUndecoded (e : Encoded) (s : State) : State :=
  match e with
  | .wireByte x b => crossByte x b s
  | .payloadByte0 b => regWrite 0x100 (b.setWidth 32) s
  | .txFrame _ => acceptFrame s
  | .rxFrame f => devSendRun f s
  | .cmd _ => s
  | .pseudo _ => s

/-- A move that carries no instruction. With no move left no agent acts and nothing changes. -/
def plainMove (s : State) : State :=
  match s.sched with
  | [] => s
  | m :: ms =>
    let t := { s with sched := ms }
    match m with
    | .host => hostLine t
    | .dev b => devSend b t
    | .devFrame f => devSendRun f t
    | .tick => tick t
    | .txAccept => offerAccepted t
    | .txFrame => acceptFrame t
    | .txFail => offerFailed t
    | .rxPoll => poll false t
    | .rxErr => poll true t
    | .reset => resetPin t

/-- The state whose next move carries the encoding `e`: a register write is placed as the next line of
the host's program and the host is next to move, a byte or frame from the device is the next move (log 2). -/
def placeEncoded (s : State) : Encoded → State
  | .cmd w => { s with host := .wr 0x000 w :: s.host, sched := .host :: s.sched }
  | .payloadByte0 b =>
    { s with host := .wr 0x100 (b.setWidth 32) :: s.host, sched := .host :: s.sched }
  | .pseudo l => { s with host := .pseudo l :: s.host, sched := .host :: s.sched }
  | .wireByte .sent b => { s with sched := .dev b :: s.sched }
  | .wireByte .taken _ => { s with sched := .rxPoll :: s.sched }
  | .wireByte .accepted _ => { s with sched := .txAccept :: s.sched }
  | .rxFrame f => { s with sched := .devFrame f :: s.sched }
  | .txFrame _ => { s with sched := .txFrame :: s.sched }

end Sys2Proof.Machine
end

