-- ==== Sys2Proof/Machine/Step.lean ====
section
/-! DEFINITION. The step: the next move of the schedule, and through it the instruction it carries. -/

namespace Sys2Proof.Machine

/-- Run what an encoding stands for. -/
def runEncoded (e : Encoded) (s : State) : Host.Outcome State Fault Refusal :=
  match decode s.cfg e with
  | .ok i => exec i s
  | .error _ => .next (crossUndecoded e s)

/-- One step of the one total order of rule R78. -/
def step (s : State) : Host.Outcome State Fault Refusal :=
  match fetch s with
  | some e => runEncoded e (advance s)
  | none => .next (plainMove s)

/-- The state with a table word placed where `step` reads its next instruction. -/
def State.withFetchWord (s : State) (nbits w : Nat) : State :=
  placeEncoded s (tableEncoded nbits w)

end Sys2Proof.Machine
end

