-- ==== Sys2Proof/Safety.lean ====
section
/-! DEFINITION. What a sound state of the block is, in the terms the claims use. -/

namespace Sys2Proof.Machine

/-- The register file is in form: both buffers canonical and inside their bounds (R28, R37). -/
structure State.BuffersSound (s : State) : Prop where
  txbuf_wf : Memory.wf s.txbuf = true
  rxbuf_wf : Memory.wf s.rxbuf = true
  txbuf_bound : ∀ a, s.cfg.maxPayload ≤ a → Memory.read s.txbuf a = none
  rxbuf_bound : ∀ a, s.cfg.rxBufSize ≤ a → Memory.read s.rxbuf a = none

/-- `EXEC` is offering its frame (R21, R23, R34, R36). -/
structure State.Sending (s : State) : Prop where
  opr : s.opr = 0x01
  length : s.txlen.toNat ≤ s.cfg.maxPayload
  written : Memory.defined s.txbuf s.txlen.toNat = true
  csum : s.csumTx = Config.csum16 (payload s)
  idx_le : s.idx.toNat ≤ s.txlen.toNat + 3
  txcnt : s.txcnt = s.idx
  rxcnt : s.rxcnt = 0

/-- `EXEC` waits for its acknowledgment byte (R21, R23, R36). -/
structure State.Awaiting (s : State) : Prop where
  opr : s.opr = 0x01
  length : s.txlen.toNat ≤ s.cfg.maxPayload
  idx : s.idx = 0
  txcnt : s.txcnt.toNat = s.txlen.toNat + 4
  rxcnt : s.rxcnt = 0

/-- The operation in flight is a receive operation of a legal frame length (R24, R150). -/
structure State.ReceiveOp (s : State) : Prop where
  opr : s.opr = 0x02 ∨ s.opr = 0x03 ∨ s.opr = 0x04
  len_ge : 2 ≤ frameLen s
  len_le : frameLen s ≤ s.cfg.rxBufSize
  txcnt : s.txcnt = 0

/-- A receive operation is collecting its frame (R21, R23, R35, R36, R37). -/
structure State.Receiving (s : State) : Prop where
  op : s.ReceiveOp
  idx_lt : s.idx.toNat < frameLen s
  rxcnt : s.rxcnt = s.idx
  stored : Memory.defined s.rxbuf s.idx.toNat = true
  csumCalc : s.csumCalc = 0
  csumWire : s.csumWire = 0

/-- A receive operation is offering its reply byte (R21, R23, R35, R36). -/
structure State.Replying (s : State) : Prop where
  op : s.ReceiveOp
  idx : s.idx = 0
  rxcnt : s.rxcnt.toNat = frameLen s
  stored : Memory.defined s.rxbuf (frameLen s) = true
  csumCalc : s.csumCalc = Config.csum16 (received s (frameLen s - 2))
  csumWire :
    s.csumWire = be16 (rxByte s (frameLen s - 2)) (rxByte s (frameLen s - 1))

/-- What the sequencing state says of the rest of the block. -/
def State.Sequenced (s : State) : Prop :=
  match s.fsm with
  | .idle => s.idx = 0
  | .sending => s.Sending
  | .awaitAck => s.Awaiting
  | .receiving => s.Receiving
  | .replying => s.Replying

/-- What the result registers say, by operation and result code (R31, R33, R38, R39, R161, R166, R201). -/
structure State.ResultsSound (s : State) : Prop where
  done_iff : s.done = true ↔ s.result ≠ .none
  busy_not_done : s.fsm ≠ .idle → s.done = false
  ack_iff : s.ackvalid = true ↔ s.result = .acked ∨ s.result = .nacked ∨ s.result = .violation
  ack_class : s.ackvalid = true → s.result = classify s.ackbyte
  ack_cleared : s.ackvalid = false → s.ackbyte = 0
  devstat_iff : s.devstat.valid = true ↔ s.opr = 0x03 ∧ s.done = true
  devstat_cleared : s.devstat.valid = false → s.devstat.code = .ok ∧ s.devstat.raw = 0
  devstat_error : s.devstat.valid = true → (s.devstat.code = .error ↔ s.result ≠ .rxOk)
  devstat_raw : s.devstat.code = .error → s.devstat.raw = 0
  version_iff : s.version.valid = true ↔ s.opr = 0x04 ∧ s.result = .rxOk
  version_cleared :
    s.version.valid = false →
      s.version.model = 0 ∧ s.version.fw = 0 ∧ s.version.hw = 0 ∧
        s.version.modelKnown = false ∧ s.version.fwKnown = false ∧ s.version.hwKnown = false
  rxOk_sums : s.result = .rxOk → s.csumCalc = s.csumWire ∧ s.wireTx.getLast? = some 0x06
  mismatch_sums :
    s.result = .checksumMismatch → s.csumCalc ≠ s.csumWire ∧ s.wireTx.getLast? = some 0x15

/-- The invariant of the block. -/
structure State.Inv (s : State) : Prop where
  legal : s.cfg.Legal
  buffers : s.BuffersSound
  sequenced : s.Sequenced
  results : s.ResultsSound

/-- The next move is the host's. -/
def hostMoves (s : State) : Prop := s.sched.head? = some .host

/-- The next move is the reset input. -/
def resetMoves (s : State) : Prop := s.sched.head? = some .reset

/-- The next move launches an operation other than `NOP` (R110): in `IDLE` the host writes such a code to
`CMD`. A device command launches in the step of its `EXEC` line (R190). -/
def launches (s : State) : Prop :=
  hostMoves s ∧ s.fsm = .idle ∧ ∃ v ls, s.host = .wr 0x000 v :: ls ∧ v.toNat % 256 ≠ 0

/-- The edges of rule R22; `IDLE` to `IDLE` includes the launches that end at once, and a state to itself the
steps that do not move the sequencing. -/
def Fsm.edge : Fsm → Fsm → Bool
  | .idle, .idle => true
  | .idle, .sending => true
  | .idle, .receiving => true
  | .sending, .sending => true
  | .sending, .awaitAck => true
  | .sending, .idle => true
  | .awaitAck, .awaitAck => true
  | .awaitAck, .idle => true
  | .receiving, .receiving => true
  | .receiving, .replying => true
  | .receiving, .idle => true
  | .replying, .replying => true
  | .replying, .idle => true
  | _, _ => false

/-- Every element of the block is as the table of rule R45 gives it, `rxq`, which the table leaves unspecified,
apart; no entry of a buffer holds a defined value. -/
structure State.Tabled (c : Config) (t : State) : Prop where
  fsm : t.fsm = .idle
  idx : t.idx = 0
  opr : t.opr = 0
  done : t.done = false
  result : t.result = .none
  txlen : t.txlen = 0
  rxlen : t.rxlen = 0
  timeout : t.timeout = c.timeoutDefault
  tmr : t.tmr = 0
  csumTx : t.csumTx = 0
  csumCalc : t.csumCalc = 0
  csumWire : t.csumWire = 0
  txcnt : t.txcnt = 0
  rxcnt : t.rxcnt = 0
  ackbyte : t.ackbyte = 0
  ackvalid : t.ackvalid = false
  devstat : t.devstat = ⟨.ok, false, 0⟩
  version : t.version = ⟨0, 0, 0, false, false, false, false⟩
  txbuf : ∀ a, Memory.read t.txbuf a = none
  rxbuf : ∀ a, Memory.read t.rxbuf a = none
  wireTx : t.wireTx = []

/-- Two states that agree on everything except the result registers, which `clear_results()` clears. -/
structure State.SameButResults (s t : State) : Prop where
  cfg : s.cfg = t.cfg
  fsm : s.fsm = t.fsm
  txlen : s.txlen = t.txlen
  rxlen : s.rxlen = t.rxlen
  timeout : s.timeout = t.timeout
  txbuf : s.txbuf = t.txbuf
  rxbuf : s.rxbuf = t.rxbuf
  tmr : s.tmr = t.tmr
  rxq : s.rxq = t.rxq
  wireTx : s.wireTx = t.wireTx
  host : s.host = t.host
  hostRd : s.hostRd = t.hostRd
  sched : s.sched = t.sched
  free : s.free = t.free

/-- The opcode bytes the catalogue gives a device command (R190, R191): a template, selected by the mode
where the command has one, and the argument bytes where it has them. Flow control selects XON/XOFF for mode
0 and RTS/CTS for every other mode (R193). -/
def Catalogued : PseudoLine → List Byte → Prop
  | .reset, t => t = templateBytes .reset
  | .startRead, t => t = templateBytes .startRead
  | .beep, t => t = templateBytes .beep
  | .bufferSelect m, t =>
    t = templateBytes (if Config.selectsBuffer2 m = true then .buffer2 else .buffer1)
  | .flowControl m, t =>
    (m = 0 ∧ t = templateBytes .flowXonXoff) ∨ (m ≠ 0 ∧ t = templateBytes .flowRtsCts)
  | .verification m, t =>
    t = templateBytes (if Config.selectsVerifyXor m = true then .verifyXor else .verifyChecksum)
  | .readCount m, t =>
    t = templateBytes (if Config.selectsReadDouble m = true then .readDouble else .readSingle)
  | .clockCount b bs, t => t = templateBytes .clockCount ++ b :: bs
  | .displayText text, t => t = templateBytes .displayText ++ text
  | .versionQuery, t => t = templateBytes .versionQuery

end Sys2Proof.Machine
end

