-- ==== Sys2Proof/Certificates/Slice0/Obligations.lean ====
section
/-! DEFINITION. The statements for the provers. Each docstring names the rule it formalises. -/

open Sys2Proof Sys2Proof.Machine

/-! ## Format CMD: the launches -/

/-- R181: a write of `v[7:0] = 0x00` to `CMD` changes no state at all, busy or not. -/
def Obligations.NopChangesNothing : Prop :=
  (∀ (c : Config) (w : Word), w.toNat % 256 = 0 → decode c (.cmd w) = .ok .nop) ∧
    ∀ s : State, exec .nop s = .next s

/-- R46: what `clear_results()` clears and what it does not touch, and that every launch other than `NOP`
performs it before anything else. -/
def Obligations.LaunchFirstClearsResults : Prop :=
  (∀ s : State,
      clearResults s =
        { s with
          done := false, result := .none, txcnt := 0, rxcnt := 0, idx := 0
          ackbyte := 0, ackvalid := false, csumTx := 0, csumCalc := 0, csumWire := 0
          devstat := ⟨.ok, false, 0⟩
          version := ⟨0, 0, 0, false, false, false, false⟩ }) ∧
    ∀ (w : Word) (s : State), w.toNat % 256 ≠ 0 → s.fsm = .idle →
      exec (decodeCmd w) s = exec (decodeCmd w) (clearResults s)

/-- R182: `FLUSH` in `IDLE` discards every pending byte and ends `FLUSHED`; nothing else changes but what the
launch clears. -/
def Obligations.FlushEmptiesQueueAndEnds : Prop :=
  (∀ (c : Config) (w : Word), w.toNat % 256 = 6 → decode c (.cmd w) = .ok .flush) ∧
    ∀ s : State, s.fsm = .idle →
      exec .flush s =
        .next { clearResults s with
          opr := 0x06, rxq := [], result := .flushed, done := true, idx := 0, fsm := .idle } ∧
      ∀ t, exec .flush s = .next t → okFlag t = true

/-- R183: a reserved code in `IDLE` ends `ILLEGAL_OP`, clears the previous results and moves no byte. -/
def Obligations.ReservedCodeEndsIllegalOp : Prop :=
  (∀ (c : Config) (w : Word), 7 ≤ w.toNat % 256 →
      decode c (.cmd w) = .ok (.reserved (BitVec.ofNat 8 (w.toNat % 256)))) ∧
    ∀ (op : Byte) (s : State), 7 ≤ op.toNat → s.fsm = .idle →
      exec (.reserved op) s =
        .next { clearResults s with
          opr := op, result := .illegalOp, done := true, idx := 0, fsm := .idle } ∧
      ∀ t, exec (.reserved op) s = .next t → okFlag t = false

/-- R172: `RX_CARD` in `IDLE` ends `NOT_IMPLEMENTED` in its launch step, moving no byte. -/
def Obligations.CardReadEndsNotImplemented : Prop :=
  (∀ (c : Config) (w : Word), w.toNat % 256 = 5 → decode c (.cmd w) = .ok .rxCard) ∧
    ∀ s : State, s.fsm = .idle →
      exec .rxCard s =
        .next { clearResults s with
          opr := 0x05, result := .notImplemented, done := true, idx := 0, fsm := .idle } ∧
      ∀ t, exec .rxCard s = .next t → okFlag t = false

/-- R131: the launch of `EXEC` in `IDLE`, by the length of the payload `p` the host has written. -/
def Obligations.ExecLaunchByLength : Prop :=
  ∀ s : State, s.fsm = .idle →
    (s.cfg.maxPayload < s.txlen.toNat →
      exec .exec s =
        .next { clearResults s with
          opr := 0x01, result := .encodingError, done := true, idx := 0, fsm := .idle }) ∧
    ∀ p : List Byte, p.length = s.txlen.toNat → p.length ≤ s.cfg.maxPayload →
      (∀ i (h : i < p.length), Memory.read s.txbuf i = some p[i]) →
      exec .exec s =
        .next { clearResults s with
          opr := 0x01
          csumTx := Config.csum16 p
          rxq := if s.cfg.flushOnExec = true then [] else s.rxq
          idx := 0, fsm := .sending }

/-- An `EXEC` of legal length over an entry the host has not written since reset stops and picks no value. R237
lets a model fault or refuse there; that this one faults is its choice (log entry 3). -/
def Obligations.ExecOverUnwrittenPayloadFaults : Prop :=
  ∀ (s : State) (i : Nat), s.fsm = .idle → s.txlen.toNat ≤ s.cfg.maxPayload →
    i < s.txlen.toNat → Memory.read s.txbuf i = none →
    exec .exec s = .fault .txbufUnwritten

/-- R151: the launch of a receive operation in `IDLE`; only `RX_FRAME` can reach the length error. -/
def Obligations.ReceiveLaunchByLength : Prop :=
  ∀ s : State, s.fsm = .idle → s.cfg.Legal →
    (s.rxlen.toNat < 2 ∨ s.cfg.rxBufSize < s.rxlen.toNat →
      exec .rxFrame s =
        .next { clearResults s with
          opr := 0x02, result := .encodingError, done := true, idx := 0, fsm := .idle }) ∧
    (2 ≤ s.rxlen.toNat → s.rxlen.toNat ≤ s.cfg.rxBufSize →
      exec .rxFrame s =
        .next { clearResults s with opr := 0x02, idx := 0, tmr := s.timeout, fsm := .receiving }) ∧
    exec .rxStatus s =
      .next { clearResults s with opr := 0x03, idx := 0, tmr := s.timeout, fsm := .receiving } ∧
    exec .rxVersion s =
      .next { clearResults s with opr := 0x04, idx := 0, tmr := s.timeout, fsm := .receiving }

/-- R46 and R144: two idle states that differ only in result registers launch every operation other than `NOP`
into the same state (or the same fault), so no result of one operation reaches the next. -/
def Obligations.NoResultSurvivesALaunch : Prop :=
  ∀ (w : Word) (s t : State), w.toNat % 256 ≠ 0 → s.fsm = .idle → s.SameButResults t →
    exec (decodeCmd w) s = exec (decodeCmd w) t

/-! ## Wire bytes and class markers -/

/-- R70: a byte the device sends is appended to `rxq` and changes nothing else, in every state of the block,
for any byte. -/
def Obligations.DeviceByteIsQueued : Prop :=
  ∀ (s : State) (b : Byte) (ms : List Move), s.sched = .dev b :: ms →
    step s = .next { s with sched := ms, rxq := s.rxq ++ [b] }

/-- `STX`, `ETX`, `ACK` and `NACK` as bytes that come from the device are queued like any byte: the model's
reading of the wire-byte rows in that direction (log entry 9). -/
def Obligations.WireByteRowsFromTheDeviceAreQueued : Prop :=
  ∀ s : State,
    exec (.stx .sent) s = .next { s with rxq := s.rxq ++ [0x02] } ∧
    exec (.etx .sent) s = .next { s with rxq := s.rxq ++ [0x03] } ∧
    exec (.ack .sent) s = .next { s with rxq := s.rxq ++ [0x06] } ∧
    exec (.nack .sent) s = .next { s with rxq := s.rxq ++ [0x15] }

/-- R102 in the rows of the table: taken in `AWAIT_ACK`, `ACK` ends the exchange `ACKED`, `NACK` ends it
`NACKED`, and the delimiters end it `VIOLATION`. -/
def Obligations.AcknowledgmentRowsEndTheExchange : Prop :=
  ∀ (s : State) (rest : List Byte), s.fsm = .awaitAck →
    (s.rxq = 0x06 :: rest →
      exec (.ack .taken) s =
        .next { s with
          rxq := rest, rxcnt := s.rxcnt + 1, ackbyte := 0x06, ackvalid := true
          result := .acked, done := true, idx := 0, fsm := .idle }) ∧
    (s.rxq = 0x15 :: rest →
      exec (.nack .taken) s =
        .next { s with
          rxq := rest, rxcnt := s.rxcnt + 1, ackbyte := 0x15, ackvalid := true
          result := .nacked, done := true, idx := 0, fsm := .idle }) ∧
    (s.rxq = 0x02 :: rest →
      exec (.stx .taken) s =
        .next { s with
          rxq := rest, rxcnt := s.rxcnt + 1, ackbyte := 0x02, ackvalid := true
          result := .violation, done := true, idx := 0, fsm := .idle }) ∧
    (s.rxq = 0x03 :: rest →
      exec (.etx .taken) s =
        .next { s with
          rxq := rest, rxcnt := s.rxcnt + 1, ackbyte := 0x03, ackvalid := true
          result := .violation, done := true, idx := 0, fsm := .idle })

/-- R92 and R133: the delimiters are the bytes accepted at offsets 0 and `TXLEN + 1` of the frame. -/
def Obligations.DelimiterRowsAreSent : Prop :=
  ∀ s : State, s.fsm = .sending → s.txlen.toNat ≤ 251 →
    (s.idx.toNat = 0 →
      exec (.stx .accepted) s =
        .next { s with wireTx := s.wireTx ++ [0x02], txcnt := s.txcnt + 1, idx := 1 }) ∧
    (s.idx.toNat = s.txlen.toNat + 1 →
      exec (.etx .accepted) s =
        .next { s with wireTx := s.wireTx ++ [0x03], txcnt := s.txcnt + 1, idx := s.idx + 1 })

/-- R103 and R157 for `RX_FRAME`: `ACK` is the reply to a frame that verified and ends the operation `RX_OK`,
`NACK` the reply to one that did not and ends it `CHECKSUM_MISMATCH`. -/
def Obligations.ReplyRowsEndTheReception : Prop :=
  ∀ s : State, s.fsm = .replying → s.opr = 0x02 →
    (s.csumCalc = s.csumWire →
      exec (.ack .accepted) s =
        .next { s with
          wireTx := s.wireTx ++ [0x06], txcnt := s.txcnt + 1
          result := .rxOk, done := true, idx := 0, fsm := .idle }) ∧
    (s.csumCalc ≠ s.csumWire →
      exec (.nack .accepted) s =
        .next { s with
          wireTx := s.wireTx ++ [0x15], txcnt := s.txcnt + 1
          result := .checksumMismatch, done := true, idx := 0, fsm := .idle })

/-- R67 and R69: a wire byte that is not the one polled, or not the one on offer, does not move (the model's
reading of a byte that cannot cross, log entry 9). -/
def Obligations.WireByteOffItsTurnStays : Prop :=
  ∀ (i : Crossing → Instr) (b : Byte) (s : State),
    (i, b) ∈ [(Instr.stx, (0x02 : Byte)), (Instr.etx, 0x03), (Instr.ack, 0x06), (Instr.nack, 0x15)] →
    (polling s = false ∨ s.rxq.head? ≠ some b → exec (i .taken) s = .next s) ∧
    (offered s ≠ some b → exec (i .accepted) s = .next s)

/-- R28 and R91: in `IDLE` a class marker is written to `TXBUF[0]`, every other entry reads as before and
nothing else changes; while an operation is in flight the write is ignored (R64). That the two class-marker rows
are this write of the host is the model's reading of the table (log entry 14). -/
def Obligations.ClassMarkerIsWrittenToEntryZero : Prop :=
  ∀ s : State, s.cfg.Legal →
    (s.fsm = .idle →
      ∀ p ∈ [(Instr.classShort, (0x06 : Byte)), (Instr.classParam, (0x07 : Byte))],
        ∃ m : Memory, exec p.1 s = .next { s with txbuf := m } ∧
          Memory.read m 0 = some p.2 ∧ ∀ a, a ≠ 0 → Memory.read m a = Memory.read s.txbuf a) ∧
    (s.fsm ≠ .idle → exec .classShort s = .next s ∧ exec .classParam s = .next s)

/-! ## Frames -/

/-- R76 and R133: in `SENDING` at offset 0 the frame over the payload `p` crosses the TX channel byte by byte. The
step of the row moves `STX` alone and leaves the other `TXLEN + 3` bytes as the transport's next moves; taken with
nothing between, those bring the rest of exactly `tx_frame(p)`, and the timer is loaded as the wait is entered.
That the row stands for these moves is the model's choice (log entry 10); a frame other than the one on offer does
not move (log entry 10). -/
def Obligations.CommandFrameCrossesWhole : Prop :=
  ∀ (s : State) (p : List Byte), s.Inv →
    (s.fsm = .sending → s.idx = 0 → payload s = p →
      exec (.commandFrame p) s =
        .next { s with
          sched := List.replicate (p.length + 3) .txAccept ++ s.sched
          wireTx := s.wireTx ++ [0x02], txcnt := 1, idx := 1 } ∧
      Host.Core.run core (p.length + 3)
          { s with
            sched := List.replicate (p.length + 3) .txAccept ++ s.sched
            wireTx := s.wireTx ++ [0x02], txcnt := 1, idx := 1 } =
        .next { s with
          wireTx := s.wireTx ++ ([0x02] ++ p ++ [0x03] ++
            [(Config.csum16 p).extractLsb' 8 8, (Config.csum16 p).extractLsb' 0 8])
          txcnt := BitVec.ofNat 8 (s.txlen.toNat + 4)
          idx := 0, tmr := s.timeout, fsm := .awaitAck }) ∧
    (s.fsm ≠ .sending ∨ s.idx ≠ 0 ∨ payload s ≠ p → exec (.commandFrame p) s = .next s)

/-- R70, R73, R76 and R101: a report frame the device sends, its trailer high byte first, is queued byte by byte.
The step of the row puts its first byte `b` on the line and leaves the others as the device's next moves; taken
with nothing between, those queue the rest. That the row stands for these moves is the model's choice (log entry
10). -/
def Obligations.ReportFrameIsQueued : Prop :=
  ∀ (s : State) (body : List Byte),
    ∃ (b : Byte) (rest : List Byte),
      b :: rest = body ++
        [(Config.csum16 body).extractLsb' 8 8, (Config.csum16 body).extractLsb' 0 8] ∧
      exec (.reportFrame body) s =
        .next { s with rxq := s.rxq ++ [b], sched := rest.map .dev ++ s.sched } ∧
      Host.Core.run core rest.length
          { s with rxq := s.rxq ++ [b], sched := rest.map .dev ++ s.sched } =
        .next { s with rxq := s.rxq ++ b :: rest }

/-- R153 and R155: a frame `f` of the operation's length that is pending when the wait begins is taken whole
by one poll a byte, stored at its offsets, and verified over all but its last two bytes. -/
def Obligations.PendingFrameIsReceivedWhole : Prop :=
  ∀ (s : State) (f q : List Byte) (ms : List Move), s.Inv → s.fsm = .receiving → s.idx = 0 →
    f.length = frameLen s → s.rxq = f ++ q →
    s.sched = List.replicate f.length .rxPoll ++ ms →
    ∃ m : Memory,
      (∀ i (h : i < f.length), Memory.read m i = some f[i]) ∧
      (∀ a, f.length ≤ a → Memory.read m a = Memory.read s.rxbuf a) ∧
      Host.Core.run core f.length s =
        .next { s with
          sched := ms, rxq := q, rxbuf := m, rxcnt := BitVec.ofNat 8 f.length, idx := 0
          csumCalc := Config.csum16 (f.take (f.length - 2))
          csumWire := f.getD (f.length - 2) 0 ++ f.getD (f.length - 1) 0
          fsm := .replying }

/-! ## Engine steps -/

/-- R133, step *send-accepted*; and after `TXLEN + 4` such steps from offset 0 the bytes appended are exactly
`tx_frame` of the payload. -/
def Obligations.SendAcceptedStep : Prop :=
  (∀ (s : State) (ms : List Move), s.fsm = .sending → s.sched = .txAccept :: ms →
    (s.idx.toNat = s.txlen.toNat + 3 →
      step s = .next { s with
        sched := ms
        wireTx := s.wireTx ++ [txByte s s.idx.toNat], txcnt := s.txcnt + 1
        idx := 0, tmr := s.timeout, fsm := .awaitAck }) ∧
    (s.idx.toNat ≠ s.txlen.toNat + 3 →
      step s = .next { s with
        sched := ms
        wireTx := s.wireTx ++ [txByte s s.idx.toNat], txcnt := s.txcnt + 1
        idx := s.idx + 1 })) ∧
  ∀ (s : State) (p : List Byte) (ms : List Move), s.Inv → s.fsm = .sending → s.idx = 0 →
    payload s = p → s.sched = List.replicate (s.txlen.toNat + 4) .txAccept ++ ms →
    Host.Core.run core (s.txlen.toNat + 4) s = .next { s with
      sched := ms
      wireTx := s.wireTx ++ ([0x02] ++ p ++ [0x03] ++
        [(Config.csum16 p).extractLsb' 8 8, (Config.csum16 p).extractLsb' 0 8])
      txcnt := BitVec.ofNat 8 (s.txlen.toNat + 4)
      idx := 0, tmr := s.timeout, fsm := .awaitAck }

/-- R136, step *ack-byte*, for every byte and whatever the timer holds. -/
def Obligations.AckByteStep : Prop :=
  ∀ (s : State) (b : Byte) (rest : List Byte) (ms : List Move), s.fsm = .awaitAck →
    s.rxq = b :: rest → s.sched = .rxPoll :: ms →
    step s = .next { s with
      sched := ms, rxq := rest, rxcnt := s.rxcnt + 1, ackbyte := b, ackvalid := true
      result := if b = 0x06 then .acked else if b = 0x15 then .nacked else .violation
      done := true, idx := 0, fsm := .idle }

/-- R134, R137 and R138, steps *send-failed*, *ack-error* and *ack-timeout*: the counters, the queue and the
wire keep what was moved; with no byte and time left no step is taken. -/
def Obligations.ExchangeFailureSteps : Prop :=
  ∀ (s : State) (ms : List Move), s.Inv →
    (s.fsm = .sending → s.sched = .txFail :: ms →
      s.txcnt.toNat ≤ s.txlen.toNat + 3 ∧
      step s = .next { s with
        sched := ms, result := .transportFailed, done := true, idx := 0, fsm := .idle }) ∧
    (s.fsm = .awaitAck → s.sched = .rxErr :: ms →
      s.ackvalid = false ∧
      step s = .next { s with
        sched := ms, result := .transportFailed, done := true, idx := 0, fsm := .idle }) ∧
    (s.fsm = .awaitAck → s.sched = .rxPoll :: ms → s.rxq = [] → s.tmr = 0 →
      s.ackvalid = false ∧ s.rxcnt = 0 ∧
      step s = .next { s with
        sched := ms, result := .timedOut, done := true, idx := 0, fsm := .idle }) ∧
    (s.fsm = .awaitAck → s.sched = .rxPoll :: ms → s.rxq = [] → s.tmr ≠ 0 →
      step s = .next { s with sched := ms })

/-- R153, step *recv-byte*, for every byte, whatever the timer holds; the last byte of the frame is verified in
the step that takes it (R155). -/
def Obligations.RecvByteStep : Prop :=
  ∀ (s : State) (b : Byte) (rest : List Byte) (ms : List Move), s.Inv → s.fsm = .receiving →
    s.rxq = b :: rest → s.sched = .rxPoll :: ms →
    (s.idx.toNat + 1 ≠ frameLen s →
      step s = .next { s with
        sched := ms, rxq := rest, rxcnt := s.rxcnt + 1
        rxbuf := Memory.write s.rxbuf s.idx.toNat b, idx := s.idx + 1 }) ∧
    (s.idx.toNat + 1 = frameLen s →
      ∀ f : List Byte, f.length = frameLen s →
        (∀ i (h : i < f.length), Memory.read (Memory.write s.rxbuf s.idx.toNat b) i = some f[i]) →
        step s = .next { s with
          sched := ms, rxq := rest, rxcnt := s.rxcnt + 1
          rxbuf := Memory.write s.rxbuf s.idx.toNat b
          csumCalc := Config.csum16 (f.take (f.length - 2))
          csumWire := f.getD (f.length - 2) 0 ++ f.getD (f.length - 1) 0
          idx := 0, fsm := .replying })

/-- R154, steps *recv-error* and *recv-timeout*: no reply is sent, what was taken stays in `RXBUF`, the
checksum registers stay 0 and `RX_STATUS` reports `ST_ERROR`; with no byte and time left no step is taken. -/
def Obligations.RecvErrorAndTimeoutSteps : Prop :=
  ∀ (s : State) (ms : List Move), s.Inv → s.fsm = .receiving →
    s.csumCalc = 0 ∧ s.csumWire = 0 ∧
    (s.sched = .rxErr :: ms →
      step s = .next { s with
        sched := ms, result := .transportFailed, done := true, idx := 0, fsm := .idle
        devstat := if s.opr = 0x03 then ⟨.error, true, 0⟩ else s.devstat }) ∧
    (s.sched = .rxPoll :: ms → s.rxq = [] → s.tmr = 0 →
      step s = .next { s with
        sched := ms, result := .timedOut, done := true, idx := 0, fsm := .idle
        devstat := if s.opr = 0x03 then ⟨.error, true, 0⟩ else s.devstat }) ∧
    (s.sched = .rxPoll :: ms → s.rxq = [] → s.tmr ≠ 0 → step s = .next { s with sched := ms })

/-- R210: inside one poll a read error comes first, then a pending byte, then an expired timer, and else no
step is taken; an error leaves the pending byte in `rxq`. -/
def Obligations.PollFollowsThePriority : Prop :=
  ∀ (s : State) (ms : List Move), s.fsm = .awaitAck ∨ s.fsm = .receiving →
    (s.sched = .rxErr :: ms →
      ∃ t, step s = .next t ∧ t.result = .transportFailed ∧ t.done = true ∧ t.fsm = .idle ∧
        t.rxq = s.rxq) ∧
    (∀ b rest, s.sched = .rxPoll :: ms → s.rxq = b :: rest →
      ∃ t, step s = .next t ∧ t.rxq = rest ∧ t.rxcnt = s.rxcnt + 1 ∧
        (t.result = .timedOut → s.result = .timedOut)) ∧
    (s.sched = .rxPoll :: ms → s.rxq = [] → s.tmr = 0 →
      ∃ t, step s = .next t ∧ t.result = .timedOut ∧ t.done = true ∧ t.fsm = .idle) ∧
    (s.sched = .rxPoll :: ms → s.rxq = [] → s.tmr ≠ 0 → step s = .next { s with sched := ms })

/-- R157, R160 and R165, step *reply-accepted*: with a match ACK goes out and the report is decoded by
operation, with a mismatch NACK goes out and nothing is decoded. -/
def Obligations.ReplyAcceptedStep : Prop :=
  ∀ (s : State) (ms : List Move), s.Inv → s.fsm = .replying → s.sched = .txAccept :: ms →
    (s.csumCalc = s.csumWire →
      (s.opr = 0x02 →
        step s = .next { s with
          sched := ms, wireTx := s.wireTx ++ [0x06], txcnt := 1
          result := .rxOk, done := true, idx := 0, fsm := .idle }) ∧
      (s.opr = 0x03 →
        ∃ st, Memory.read s.rxbuf 3 = some st ∧
          step s = .next { s with
            sched := ms, wireTx := s.wireTx ++ [0x06], txcnt := 1
            devstat := ⟨decodeStatus s.cfg st, true, st⟩
            result := .rxOk, done := true, idx := 0, fsm := .idle }) ∧
      (s.opr = 0x04 →
        ∃ m f h, Memory.read s.rxbuf s.cfg.verOffModel = some m ∧
          Memory.read s.rxbuf s.cfg.verOffFw = some f ∧
          Memory.read s.rxbuf s.cfg.verOffHw = some h ∧
          step s = .next { s with
            sched := ms, wireTx := s.wireTx ++ [0x06], txcnt := 1
            version := ⟨m, f, h, decide (m ∈ s.cfg.modelSet), decide (f ∈ s.cfg.fwSet),
              decide (h ∈ s.cfg.hwSet), true⟩
            result := .rxOk, done := true, idx := 0, fsm := .idle })) ∧
    (s.csumCalc ≠ s.csumWire →
      step s = .next { s with
        sched := ms, wireTx := s.wireTx ++ [0x15], txcnt := 1
        devstat := if s.opr = 0x03 then ⟨.error, true, 0⟩ else s.devstat
        result := .checksumMismatch, done := true, idx := 0, fsm := .idle })

/-- R158, step *reply-failed*: `TRANSPORT_FAILED` whatever the verification said, with no reply on the wire and
nothing decoded. -/
def Obligations.ReplyFailedStep : Prop :=
  ∀ (s : State) (ms : List Move), s.Inv → s.fsm = .replying → s.sched = .txFail :: ms →
    s.txcnt = 0 ∧
    step s = .next { s with
      sched := ms
      devstat := if s.opr = 0x03 then ⟨.error, true, 0⟩ else s.devstat
      result := .transportFailed, done := true, idx := 0, fsm := .idle }

/-- R41: `TMR` is loaded only as a wait is entered, counts down only on a tick inside a wait, saturates at 0,
and is otherwise kept (the reset input apart, R230). -/
def Obligations.TimerIsLoadedOrTicked : Prop :=
  (∀ (s : State) (ms : List Move), s.sched = .tick :: ms →
      step s = .next { s with
        sched := ms
        tmr := if (s.fsm = .awaitAck ∨ s.fsm = .receiving) ∧ 0 < s.tmr.toNat then s.tmr - 1
          else s.tmr }) ∧
    ∀ s t : State, step s = .next t → ¬ resetMoves s → s.sched.head? ≠ some .tick →
      (t.fsm ≠ s.fsm ∧ (t.fsm = .awaitAck ∨ t.fsm = .receiving) ∧ t.tmr = s.timeout) ∨
      (¬ (t.fsm ≠ s.fsm ∧ (t.fsm = .awaitAck ∨ t.fsm = .receiving)) ∧ t.tmr = s.tmr)

/-- R41, R138 and R154: with the line quiet, a wait that has `TMR` ticks left, `AWAIT_ACK` or `RECEIVING`, ends
`TIMED_OUT` at the first poll after that many ticks, and not at a poll before; `RX_STATUS` then reports
`ST_ERROR`. -/
def Obligations.QuietWaitTimesOut : Prop :=
  ∀ (s : State) (n : Nat) (ms : List Move), s.fsm = .awaitAck ∨ s.fsm = .receiving → s.rxq = [] →
    n ≤ s.tmr.toNat → s.sched = List.replicate n .tick ++ .rxPoll :: ms →
    Host.Core.run core (n + 1) s =
      if n = s.tmr.toNat then
        .next { s with
          sched := ms, tmr := 0, result := .timedOut, done := true, idx := 0, fsm := .idle
          devstat := if s.fsm = .receiving ∧ s.opr = 0x03 then ⟨.error, true, 0⟩ else s.devstat }
      else .next { s with sched := ms, tmr := s.tmr - BitVec.ofNat 32 n }

/-! ## The register space -/

/-- R63 and R64: a host write, index by index; while `FSM != IDLE` it is ignored, whatever the index: the host's
line is spent and no state changes. -/
def Obligations.HostWriteStoresByIndex : Prop :=
  ∀ (s t : State) (a : BitVec 10) (v : Word) (ls : List HostLine) (ms : List Move),
    s.cfg.Legal → s.sched = .host :: ms → s.host = .wr a v :: ls →
    t = { s with sched := ms, host := ls } →
    step s =
      (if s.fsm ≠ .idle then .next t
      else if a.toNat = 0x000 then exec (decodeCmd v) t
      else if a.toNat = 0x002 then .next { t with txlen := BitVec.ofNat 8 (v.toNat % 256) }
      else if a.toNat = 0x003 then .next { t with rxlen := BitVec.ofNat 8 (v.toNat % 256) }
      else if a.toNat = 0x004 then .next { t with timeout := v }
      else if 0x100 ≤ a.toNat ∧ a.toNat < 0x100 + s.cfg.maxPayload then
        .next { t with
          txbuf := Memory.write s.txbuf (a.toNat - 0x100) (BitVec.ofNat 8 (v.toNat % 256)) }
      else .next t)

/-- R61 and R62: the value a read returns, field by field, for every register of the map; a defined buffer
entry reads as its byte, `CMD` and every reserved index as 0. -/
def Obligations.RegisterReadPlacesFields : Prop :=
  ∀ s : State, s.cfg.Legal →
    regRead s 0x000 = 0 ∧
    (regRead s 0x001).toNat =
      (busy s).toNat + 2 * s.done.toNat + 4 * (okFlag s).toNat + 16 * s.result.bits.toNat +
        256 * s.fsm.bits.toNat + 65536 * s.opr.toNat ∧
    (regRead s 0x002).toNat = s.txlen.toNat ∧
    (regRead s 0x003).toNat = s.rxlen.toNat ∧
    regRead s 0x004 = s.timeout ∧
    (regRead s 0x005).toNat = s.csumTx.toNat ∧
    (regRead s 0x006).toNat = 65536 * s.csumCalc.toNat + s.csumWire.toNat ∧
    (regRead s 0x007).toNat = s.txcnt.toNat + 256 * s.rxcnt.toNat ∧
    (regRead s 0x008).toNat = s.ackbyte.toNat + 256 * s.ackvalid.toNat ∧
    (regRead s 0x009).toNat =
      s.devstat.code.bits.toNat + 8 * s.devstat.valid.toNat + 256 * s.devstat.raw.toNat ∧
    (regRead s 0x00A).toNat =
      s.version.model.toNat + 256 * s.version.fw.toNat + 65536 * s.version.hw.toNat +
        2 ^ 24 * s.version.modelKnown.toNat + 2 ^ 25 * s.version.fwKnown.toNat +
        2 ^ 26 * s.version.hwKnown.toNat + 2 ^ 31 * s.version.valid.toNat ∧
    regRead s 0x00B = s.tmr ∧
    (∀ (i : Nat) (b : Byte), i < s.cfg.maxPayload → Memory.read s.txbuf i = some b →
      (regRead s (BitVec.ofNat 10 (0x100 + i))).toNat = b.toNat) ∧
    (∀ (i : Nat) (b : Byte), i < s.rxcnt.toNat → i < s.cfg.rxBufSize →
      Memory.read s.rxbuf i = some b →
      (regRead s (BitVec.ofNat 10 (0x200 + i))).toNat = b.toNat) ∧
    ∀ a : BitVec 10,
      (0x00C ≤ a.toNat ∧ a.toNat < 0x100) ∨
        (0x100 + s.cfg.maxPayload ≤ a.toNat ∧ a.toNat < 0x200) ∨
        0x200 + s.cfg.rxBufSize ≤ a.toNat →
      regRead s a = 0

/-- R62: a read, in every state of the block, hands the host the value of the register at that step and
changes no element of the block (the host's own record and the model's draw counter apart, log entries 4
and 6). -/
def Obligations.HostReadHasNoSideEffect : Prop :=
  ∀ (s : State) (a : BitVec 10) (ls : List HostLine) (ms : List Move),
    s.sched = .host :: ms → s.host = .rd a :: ls →
    ∃ k, step s =
        .next { s with sched := ms, host := ls, hostRd := s.hostRd ++ [regRead s a], free := k } ∧
      (unspecified s (regAt s.cfg a) = false → k = s.free)

/-- R113 and R190: `WAIT` is a `RD STATUS` that the host repeats until it finds `DONE = 1`. That each host move
performs one such read, and the line stays until the read that finds it, is the model's reading (log entry 21);
the record of the values read is the model's own (log entry 6). -/
def Obligations.WaitRepeatsUntilDone : Prop :=
  ∀ (s : State) (ls : List HostLine) (ms : List Move),
    s.sched = .host :: ms → s.host = .wait :: ls →
    step s =
      .next { s with
        sched := ms
        host := if s.done = true then ls else .wait :: ls
        hostRd := s.hostRd ++ [statusWord s] }

/-- R30 and R32: `BUSY` is `FSM != IDLE` and `OK` is `RESULT in {ACKED, RX_OK, FLUSHED}`. -/
def Obligations.BusyAndOkAreFunctions : Prop :=
  ∀ s : State,
    (busy s = true ↔ s.fsm ≠ .idle) ∧
    (okFlag s = true ↔ s.result = .acked ∨ s.result = .rxOk ∨ s.result = .flushed)

/-! ## Device commands -/

/-- The ten device commands `CMD_RESET`, `CMD_START_READ`, `CMD_BEEP`, `CMD_BUFFER_SELECT`, `CMD_FLOW_CONTROL`,
`CMD_VERIFICATION`, `CMD_READ_COUNT`, `CMD_CLOCK_COUNT`, `CMD_DISPLAY_TEXT` and `CMD_VERSION_QUERY` (each
`decodePseudo l` for one shape of `l`; every line has its opcode bytes `t`, `exec_decodePseudo`). The step of a
command performs the first of its lines, the write of `t[0]` to `TXBUF[0]`, and leaves the others to the host (log
entry 11); in `IDLE` that write is stored, while an operation is in flight it is ignored (R64). From `IDLE`, the
other lines taken with nothing between fill `TXBUF` with `t`, set `TXLEN`, launch `EXEC` over `t` and leave the host
in `WAIT`, where `t` fits (R190, R191, R193); where it does not, they end `ENCODING_ERROR` with nothing sent and
nothing flushed (R194). What `TXLEN` holds for more than 255 bytes is the model's choice (log entry 13). The other
entries of `TXBUF` read as before. -/
def Obligations.DeviceCommandLaunchesItsTemplate : Prop :=
  ∀ (s : State) (l : PseudoLine) (t : List Byte), s.cfg.Legal → Catalogued l t →
    (s.fsm = .idle →
      ∃ (b : Byte) (u : State) (m : Memory), t.head? = some b ∧
        u = { s with
          txbuf := Memory.write s.txbuf 0 b, host := (commandLines s.cfg t).tail ++ s.host } ∧
        exec (decodePseudo l) s = .next u ∧
        (∀ a, Memory.read m a =
          if a < t.length ∧ a < s.cfg.maxPayload then t[a]? else Memory.read s.txbuf a) ∧
        ∀ ms : List Move,
          (t.length ≤ s.cfg.maxPayload →
            Host.Core.run core (t.length + 1)
                { u with sched := List.replicate (t.length + 1) .host ++ ms } =
              .next { clearResults s with
                sched := ms
                opr := 0x01
                txbuf := m
                txlen := BitVec.ofNat 8 t.length
                csumTx := Config.csum16 t
                rxq := if s.cfg.flushOnExec = true then [] else s.rxq
                fsm := .sending
                host := .wait :: s.host }) ∧
          (s.cfg.maxPayload < t.length →
            Host.Core.run core (s.cfg.maxPayload + 1)
                { u with sched := List.replicate (s.cfg.maxPayload + 1) .host ++ ms } =
              .next { clearResults s with
                sched := ms
                opr := 0x01
                txbuf := m
                txlen := BitVec.ofNat 8 (min t.length 255)
                result := .encodingError, done := true, fsm := .idle
                host := .wait :: s.host })) ∧
    (s.fsm ≠ .idle →
      exec (decodePseudo l) s = .next { s with host := (commandLines s.cfg t).tail ++ s.host })

/-- R192: every template begins with a class marker, 0x06 or 0x07, and a subcommand byte; a template without
arguments is two or three bytes long. -/
def Obligations.TemplateBeginsWithClassMarker : Prop :=
  ∀ n : TemplateName,
    2 ≤ (templateBytes n).length ∧
      ((templateBytes n).head? = some 0x06 ∨ (templateBytes n).head? = some 0x07) ∧
      (n.takesArgument = false → (templateBytes n).length ≤ 3)

/-- R113 and R190: a device command stands for its lines. In every state, idle or busy, the step of the command at
the head of the host's program is the step of the lines themselves at the head of that program, so that whatever
comes between two of them (another agent's move, a reset, the end of an operation) comes between them here too. -/
def Obligations.DeviceCommandIsItsLines : Prop :=
  ∀ (s : State) (l : PseudoLine) (t : List Byte) (ls : List HostLine) (ms : List Move),
    s.cfg.Legal → t.length ≤ s.cfg.maxPayload → Catalogued l t →
    step { s with sched := .host :: ms, host := .pseudo l :: ls } =
      step { s with
        sched := .host :: ms
        host :=
          (t.mapIdx fun i b => .wr (BitVec.ofNat 10 (0x100 + i)) (b.setWidth 32)) ++
            .wr 0x002 (BitVec.ofNat 32 t.length) :: .wr 0x000 0x01 :: .wait :: ls }

/-! ## Encodings and spans -/

/-- The decoder reads every well-formed instruction back from its encoding, with every operand at every value
the encoding admits. -/
def Obligations.DecodeOfEncodeIsTheInstruction : Prop :=
  ∀ (c : Config) (i : Instr), i.wellFormed c = true → decode c (encode i) = .ok i

/-- What the decoder accepts is well formed, and its encoding is what was read: exactly, but for the ignored
bits 31:8 of a `CMD` value, which come back 0 (R110). -/
def Obligations.DecodedEncodingIsRecovered : Prop :=
  ∀ (c : Config) (e : Encoded) (i : Instr), decode c e = .ok i →
    i.wellFormed c = true ∧
    encode i = match e with
      | .cmd w => .cmd (w &&& 0xFF)
      | e => e

/-- R110 and R111: the operation map; bits 31:8 of the written value are ignored. -/
def Obligations.OperationMapIgnoresHighBits : Prop :=
  ∀ (c : Config) (w : Word),
    decode c (.cmd w) =
      .ok (if w.toNat % 256 = 0x00 then .nop
        else if w.toNat % 256 = 0x01 then .exec
        else if w.toNat % 256 = 0x02 then .rxFrame
        else if w.toNat % 256 = 0x03 then .rxStatus
        else if w.toNat % 256 = 0x04 then .rxVersion
        else if w.toNat % 256 = 0x05 then .rxCard
        else if w.toNat % 256 = 0x06 then .flush
        else .reserved (BitVec.ofNat 8 (w.toNat % 256)))

/-- Words written out from the table's encodings decode to their rows. -/
def Obligations.WrittenOutWordsDecode : Prop :=
  decode Config.standard (.cmd 0b00000000000000000000000000000001#32) = .ok .exec ∧
    decode Config.standard (.cmd 0b11111111111111111111111100000011#32) = .ok .rxStatus ∧
    decode Config.standard (.cmd 0b00000000000000000000000000000110#32) = .ok .flush ∧
    decode Config.standard (.cmd 0b00000000000000000000000000101010#32) = .ok (.reserved 0x2A) ∧
    decode Config.standard (.wireByte .taken 0b00010101#8) = .ok (.nack .taken) ∧
    decode Config.standard (.payloadByte0 0b00000111#8) = .ok .classParam

/-- R95: the bytes offered one by one are the bytes of `tx_frame(p)`, for every payload `p`. -/
def Obligations.OfferedBytesSpellTheFrame : Prop :=
  ∀ (s : State) (p : List Byte), payload s = p → s.csumTx = Config.csum16 p →
    offeredFrame s = txFrame p ∧
    txFrame p = [0x02] ++ p ++ [0x03] ++
      [(Config.csum16 p).extractLsb' 8 8, (Config.csum16 p).extractLsb' 0 8] ∧
    ∀ i, i < p.length + 4 → (txFrame p)[i]? = some (txByte s i)

/-- R97: `verify` sums every byte but the last two and compares with the last two, high byte first; so every
report frame built over its own body verifies (L1-1 (b)). -/
def Obligations.VerifySpansAllButTheTrailer : Prop :=
  (∀ (body : List Byte) (hi lo : Byte),
      verify (body ++ [hi, lo]) =
        (decide ((Config.csum16 body).toNat = hi.toNat * 256 + lo.toNat), Config.csum16 body,
          hi ++ lo)) ∧
    ∀ body : List Byte, verify (rxFrame body) = (true, Config.csum16 body, Config.csum16 body)

/-- R99: `verify(tx_frame(p))` matches exactly when the checksums over the two spans are equal. -/
def Obligations.FrameVerifiesOnlyIfSpansAgree : Prop :=
  ∀ p : List Byte,
    (verify (txFrame p)).1 = true ↔ Config.csum16 ([0x02] ++ p ++ [0x03]) = Config.csum16 p

/-- R102 and R103: the classification of the byte taken and the reply byte. -/
def Obligations.ClassifyAndReplyBytes : Prop :=
  classify 0x06 = .acked ∧ classify 0x15 = .nacked ∧
    (∀ b : Byte, b ≠ 0x06 → b ≠ 0x15 → classify b = .violation) ∧
    reply true = 0x06 ∧ reply false = 0x15

/-- R104: the first named bit that is set, in the spec's order, decides; no bit gives `ST_OK`, and `ST_ERROR`
is never a result. -/
def Obligations.StatusDecodeTakesFirstNamedBit : Prop :=
  ∀ (c : Config) (b : Byte),
    (b &&& c.maskRam ≠ 0 → decodeStatus c b = .ramError) ∧
    (b &&& c.maskRam = 0 → b &&& c.maskWait ≠ 0 → decodeStatus c b = .waiting) ∧
    (b &&& c.maskRam = 0 → b &&& c.maskWait = 0 → b &&& c.maskWrongRead ≠ 0 →
      decodeStatus c b = .wrongRead) ∧
    (b &&& c.maskRam = 0 → b &&& c.maskWait = 0 → b &&& c.maskWrongRead = 0 →
      b &&& c.maskWrongClock ≠ 0 → decodeStatus c b = .wrongClock) ∧
    (b &&& (c.maskRam ||| c.maskWait ||| c.maskWrongRead ||| c.maskWrongClock) = 0 →
      decodeStatus c b = .ok) ∧
    decodeStatus c b ≠ .error

/-! ## The whole machine -/

/-- When what the next move carries decodes to `i`, the step is `exec i` past that move. -/
def Obligations.StepRunsTheDecodedInstruction : Prop :=
  ∀ (s : State) (e : Encoded) (i : Instr), fetch s = some e → decode s.cfg e = .ok i →
    step s = exec i (advance s)

/-- A table word placed in a state is what the next step runs, on that very state. As which format a word is read is
the model's reading of the table (log entry 15), and where it is placed, as the next line or move, is its choice
(log entry 2). -/
def Obligations.PlacedWordIsRunNext : Prop :=
  ∀ (s : State) (nbits w : Nat) (i : Instr), s.cfg = Config.standard →
    decodeTableWord nbits w = some i → step (s.withFetchWord nbits w) = exec i s

/-- R45: the state after reset, by the reset input applied in any state (R230) and at power-on: every element has
the value of the table (`State.Tabled`), and `TXBUF` and `RXBUF` hold no defined value; of `rxq`, which the rule
leaves unspecified, nothing is said. -/
def Obligations.ResetLeavesTheTabledValues : Prop :=
  (∀ (s : State) (ms : List Move), s.sched = .reset :: ms →
      ∃ t, step s = .next t ∧ t.Tabled s.cfg ∧ t.sched = ms ∧ t.cfg = s.cfg ∧ statusWord t = 0) ∧
    State.reset.Tabled Config.standard ∧ State.reset.timeout = 5000 ∧ statusWord State.reset = 0

/-- The invariant of the block holds after reset, whatever bytes are pending and for every legal
configuration. -/
def Obligations.ResetMeetsTheInvariant : Prop :=
  State.reset.Inv ∧ ∀ (c : Config) (q : List Byte), c.Legal → (State.powerOn c q).Inv

/-- Every step keeps the invariant of the block: buffers in canonical form and in bounds, the sequencing state
and its counters, the checksum spans, and what the result registers say. -/
def Obligations.StepKeepsTheInvariant : Prop :=
  ∀ s t : State, s.Inv → step s = .next t → t.Inv

/-- R22: without the reset input, `FSM` follows the edges of the table and no other; it leaves `IDLE` only by a
launch, and a host move never takes a busy block back to `IDLE`. -/
def Obligations.SequencingFollowsTheEdges : Prop :=
  ∀ s t : State, step s = .next t → ¬ resetMoves s →
    Fsm.edge s.fsm t.fsm = true ∧
    (s.fsm = .idle → t.fsm ≠ .idle → launches s) ∧
    (hostMoves s → s.fsm ≠ .idle → t.fsm = s.fsm)

/-- R243: in `SENDING` and `REPLYING` nothing but an answer of the transport or the reset input ends the wait:
every other move leaves the sequencing state, the counters and the wire as they are. -/
def Obligations.UnansweredOfferHangs : Prop :=
  ∀ s t : State, (s.fsm = .sending ∨ s.fsm = .replying) →
    s.sched.head? ≠ some .txAccept → s.sched.head? ≠ some .txFrame →
    s.sched.head? ≠ some .txFail → s.sched.head? ≠ some .reset → step s = .next t →
    t.fsm = s.fsm ∧ t.idx = s.idx ∧ t.opr = s.opr ∧ t.done = s.done ∧ t.result = s.result ∧
      t.txcnt = s.txcnt ∧ t.wireTx = s.wireTx ∧ t.tmr = s.tmr

/-- R28 and R37: the engine never writes `TXBUF`, and writes `RXBUF` only at the byte it has just taken; no
launch clears either; every other byte reads as before. -/
def Obligations.BuffersHaveOneWriter : Prop :=
  ∀ s t : State, step s = .next t → ¬ resetMoves s →
    (¬ (hostMoves s ∧ s.fsm = .idle) → ∀ a, Memory.read t.txbuf a = Memory.read s.txbuf a) ∧
    (∀ a, Memory.read t.rxbuf a ≠ Memory.read s.rxbuf a →
      s.fsm = .receiving ∧ s.sched.head? = some .rxPoll ∧ a = s.idx.toNat ∧
        Memory.read t.rxbuf a = s.rxq.head?)

/-- R42, R68, R71, R76 and R79: the queue of received bytes is first-in first-out and lossless: a step appends one
byte the device sends, or takes the oldest byte and counts it, or empties it in a launch of `EXEC` or `FLUSH`, or
leaves it. That the reset input leaves it is the model's choice, read from R231 (log entry 7). -/
def Obligations.ReceivedBytesAreFirstInFirstOut : Prop :=
  ∀ s t : State, step s = .next t →
    t.rxq = s.rxq ∨
    (∃ b, t.rxq = s.rxq ++ [b] ∧
      (s.sched.head? = some (.dev b) ∨ ∃ bs, s.sched.head? = some (.devFrame (b :: bs)))) ∨
    (∃ b, s.rxq = b :: t.rxq ∧ s.sched.head? = some .rxPoll ∧ t.rxcnt = s.rxcnt + 1) ∨
    (t.rxq = [] ∧ hostMoves s ∧ s.fsm = .idle ∧ (t.opr = 0x01 ∨ t.opr = 0x06))

/-- R43, R76 and R132: `wire_tx` never shrinks, but at a reset; a step appends at most one byte to it, and that is the
byte the engine offers in `SENDING` or `REPLYING`, counted in `TXCNT`. -/
def Obligations.WireHistoryOnlyGrows : Prop :=
  ∀ s t : State, step s = .next t → ¬ resetMoves s →
    t.wireTx = s.wireTx ∨
    ∃ b, (s.fsm = .sending ∨ s.fsm = .replying) ∧ offered s = some b ∧
      t.wireTx = s.wireTx ++ [b] ∧ t.txcnt = s.txcnt + 1

/-- R29: the argument registers change only by a host move in `IDLE`, or at a reset. -/
def Obligations.ArgumentsChangeOnlyWhileIdle : Prop :=
  ∀ s t : State, step s = .next t → ¬ resetMoves s → ¬ (hostMoves s ∧ s.fsm = .idle) →
    t.txlen = s.txlen ∧ t.rxlen = s.rxlen ∧ t.timeout = s.timeout ∧ t.txbuf = s.txbuf

/-- R24: `OPR` is written with `v[7:0]` by every launch whose code is not 0 and by nothing else (the reset
input apart, R230). -/
def Obligations.OperationCodeIsTheLastLaunch : Prop :=
  ∀ s t : State, step s = .next t → ¬ resetMoves s →
    (∀ v ls, hostMoves s → s.fsm = .idle → s.host = .wr 0x000 v :: ls → v.toNat % 256 ≠ 0 →
      t.opr = BitVec.ofNat 8 (v.toNat % 256)) ∧
    (¬ launches s → t.opr = s.opr)

/-- R81: `DONE = 1` implies `BUSY = 0`, and from then on every result register keeps its value until the next
launch other than `NOP` (the reset input apart). -/
def Obligations.ResultsHoldUntilTheNextLaunch : Prop :=
  ∀ s t : State, s.Inv → s.done = true → step s = .next t → ¬ resetMoves s → ¬ launches s →
    busy s = false ∧ t.fsm = .idle ∧ t.done = true ∧ t.result = s.result ∧
      t.csumTx = s.csumTx ∧ t.csumCalc = s.csumCalc ∧ t.csumWire = s.csumWire ∧
      t.txcnt = s.txcnt ∧ t.rxcnt = s.rxcnt ∧ t.ackbyte = s.ackbyte ∧ t.ackvalid = s.ackvalid ∧
      t.devstat = s.devstat ∧ t.version = s.version ∧ t.rxbuf = s.rxbuf

/-- The machine stops only at the launch of an `EXEC` over an unwritten entry (R237; that it faults there and does
not refuse is the model's choice, log entry 3), and never refuses. -/
def Obligations.OnlyAnUnwrittenPayloadStops : Prop :=
  ∀ s : State,
    (∀ r, step s ≠ .refused r) ∧
    ∀ f, step s = .fault f →
      f = .txbufUnwritten ∧ hostMoves s ∧ s.fsm = .idle ∧
        (∃ v ls, s.host = .wr 0x000 v :: ls ∧ v.toNat % 256 = 0x01) ∧
        s.txlen.toNat ≤ s.cfg.maxPayload ∧
        ∃ i, i < s.txlen.toNat ∧ Memory.read s.txbuf i = none
end

