-- ==== Sys2Proof/Laws/Encoding.lean ====
section
/-! SUPPORT. The laws of the encodings: byte order, frames, and what the decoder accepts. -/

namespace Sys2Proof

theorem lowByte_toNat (w : Word) : (lowByte w).toNat = w.toNat % 256 := by
  simp [lowByte, BitVec.extractLsb'_toNat]

theorem lowByte_eq (w : Word) : lowByte w = BitVec.ofNat 8 (w.toNat % 256) :=
  BitVec.eq_of_toNat_eq (by simp [lowByte_toNat])

@[simp] theorem lowByte_setWidth (b : Byte) : lowByte (b.setWidth 32) = b :=
  BitVec.eq_of_toNat_eq (by
    have := b.isLt
    simp [lowByte_toNat]
    omega)

theorem hi8_toNat (c : Half) : (hi8 c).toNat = c.toNat / 256 := by
  have := c.isLt
  simp [hi8, BitVec.extractLsb'_toNat, Nat.shiftRight_eq_div_pow]
  omega

theorem lo8_toNat (c : Half) : (lo8 c).toNat = c.toNat % 256 := by
  simp [lo8, BitVec.extractLsb'_toNat]

theorem be16_toNat (a b : Byte) : (be16 a b).toNat = a.toNat * 256 + b.toNat := by
  have := b.isLt
  rw [be16, BitVec.toNat_append, ← Nat.shiftLeft_add_eq_or_of_lt this, Nat.shiftLeft_eq]

@[simp] theorem be16_hi8_lo8 (c : Half) : be16 (hi8 c) (lo8 c) = c :=
  BitVec.eq_of_toNat_eq (by rw [be16_toNat, hi8_toNat, lo8_toNat]; omega)

theorem hi8_be16 (a b : Byte) : hi8 (be16 a b) = a :=
  BitVec.eq_of_toNat_eq (by have := b.isLt; rw [hi8_toNat, be16_toNat]; omega)

theorem lo8_be16 (a b : Byte) : lo8 (be16 a b) = b :=
  BitVec.eq_of_toNat_eq (by have := b.isLt; rw [lo8_toNat, be16_toNat]; omega)

@[simp] theorem trailer_length (c : Half) : (trailer c).length = 2 := rfl

@[simp] theorem txFrame_length (p : List Byte) : (txFrame p).length = p.length + 4 := by
  simp [txFrame]

@[simp] theorem rxFrame_length (body : List Byte) : (rxFrame body).length = body.length + 2 := by
  simp [rxFrame]

theorem txFrame_injective {p q : List Byte} (h : txFrame p = txFrame q) : p = q := by
  have hl : p.length = q.length := by
    have := congrArg List.length h
    simpa using this
  have h2 : p ++ ([0x03] ++ trailer (Config.csum16 p)) = q ++ ([0x03] ++ trailer (Config.csum16 q)) := by
    simpa [txFrame] using h
  exact (List.append_inj h2 hl).1

/-- The command-frame decoder accepts exactly the frames over a payload that fits. -/
theorem decodeTxFrame_iff (c : Config) (f : List Byte) (i : Instr) :
    decodeTxFrame c f = .ok i ↔
      ∃ p, i = .commandFrame p ∧ f = txFrame p ∧ p.length ≤ c.maxPayload := by
  constructor
  · intro h
    unfold decodeTxFrame at h
    simp only at h
    split at h
    · cases h
    rename_i h4
    split at h
    · cases h
    rename_i hm
    split at h
    · cases h
    rename_i hs
    split at h
    · cases h
    rename_i he
    split at h
    · cases h
    rename_i ht
    cases h
    rw [not_not] at hs he ht
    refine ⟨_, rfl, ?_, ?_⟩
    · rw [txFrame, ← ht, ← hs]
      conv_lhs => rw [← List.take_append_drop 1 f]
      rw [List.append_assoc, List.append_assoc]
      congr 1
      rw [← he]
      conv_lhs => rw [← List.take_append_drop (f.length - 4) (f.drop 1)]
      rw [List.append_cancel_left_eq, List.drop_drop]
      rw [show 1 + (f.length - 4) = f.length - 4 + 1 by omega]
      conv_lhs => rw [← List.take_append_drop 1 (f.drop (f.length - 4 + 1))]
      rw [List.drop_drop]
    · simp only [List.length_take, List.length_drop]
      omega
  · rintro ⟨p, rfl, rfl, hp⟩
    have hlen : (txFrame p).length - 4 = p.length := by simp
    have hbody : ((txFrame p).drop 1).take p.length = p := by simp [txFrame]
    unfold decodeTxFrame
    simp only [hlen, hbody]
    have hetx : ((txFrame p).drop (p.length + 1)).take 1 = [0x03] := by
      rw [show txFrame p = ([0x02] ++ p) ++ ([0x03] ++ trailer (Config.csum16 p)) by simp [txFrame],
        List.drop_left' (by simp)]
      rfl
    have htrailer : (txFrame p).drop (p.length + 2) = trailer (Config.csum16 p) := by
      rw [show txFrame p = ([0x02] ++ p ++ [0x03]) ++ trailer (Config.csum16 p) by simp [txFrame],
        List.drop_left' (by simp)]
    rw [if_neg (by simp only [txFrame_length]; omega), if_neg (by omega), if_neg (by simp [txFrame]),
      if_neg (not_not.2 hetx), if_neg (not_not.2 htrailer)]

/-- The report-frame decoder accepts exactly the frames over a body that fits. -/
theorem decodeRxFrame_iff (c : Config) (f : List Byte) (i : Instr) :
    decodeRxFrame c f = .ok i ↔
      ∃ body, i = .reportFrame body ∧ f = rxFrame body ∧ body.length + 2 ≤ c.rxBufSize := by
  constructor
  · intro h
    unfold decodeRxFrame at h
    simp only at h
    split at h
    · cases h
    split at h
    · cases h
    split at h
    · cases h
    rename_i ht
    rw [not_not] at ht
    cases h
    refine ⟨_, rfl, ?_, ?_⟩
    · rw [rxFrame, ← ht, List.take_append_drop]
    · simp only [List.length_take]
      omega
  · rintro ⟨body, rfl, rfl, hb⟩
    have hlen : (rxFrame body).length - 2 = body.length := by simp
    have hbody : (rxFrame body).take body.length = body := by simp [rxFrame]
    unfold decodeRxFrame
    simp only [hlen, hbody]
    rw [if_neg (by simp), if_neg (by simp only [rxFrame_length]; omega), if_neg (by simp [rxFrame])]

theorem decodeWireByte_iff (x : Crossing) (b : Byte) (i : Instr) :
    decodeWireByte x b = .ok i ↔
      (b = 0x02 ∧ i = .stx x) ∨ (b = 0x03 ∧ i = .etx x) ∨ (b = 0x06 ∧ i = .ack x) ∨
        (b = 0x15 ∧ i = .nack x) := by
  constructor
  · intro h
    unfold decodeWireByte at h
    split at h <;> cases h
    all_goals rename_i hb
    all_goals simp
    all_goals exact BitVec.eq_of_toNat_eq hb
  · rintro (⟨rfl, rfl⟩ | ⟨rfl, rfl⟩ | ⟨rfl, rfl⟩ | ⟨rfl, rfl⟩) <;> rfl

theorem decodePayloadByte0_iff (b : Byte) (i : Instr) :
    decodePayloadByte0 b = .ok i ↔
      (b = 0x06 ∧ i = .classShort) ∨ (b = 0x07 ∧ i = .classParam) := by
  constructor
  · intro h
    unfold decodePayloadByte0 at h
    split at h <;> cases h
    all_goals rename_i hb
    all_goals simp
    all_goals exact BitVec.eq_of_toNat_eq hb
  · rintro (⟨rfl, rfl⟩ | ⟨rfl, rfl⟩) <;> rfl

end Sys2Proof
end

