-- ==== Sys2Proof/Laws/Memory.lean ====
section
/-! SUPPORT. The laws of the byte buffers: read after write, the canonical form, and spans of entries. -/

namespace Sys2Proof.Machine

/-! ## Read after write -/

@[simp] theorem Memory.read_nil (a : Nat) : Memory.read [] a = none := rfl

theorem Memory.read_cons (k : Nat) (v : Byte) (m : Memory) (a : Nat) :
    Memory.read ((k, v) :: m) a = if a = k then some v else Memory.read m a := rfl

theorem Memory.read_write (m : Memory) (a : Nat) (b : Byte) (i : Nat) :
    Memory.read (Memory.write m a b) i = if i = a then some b else Memory.read m i := by
  induction m with
  | nil => rfl
  | cons c m ih =>
    obtain ⟨k, v⟩ := c
    unfold Memory.write
    split
    · simp only [Memory.read_cons]
    · split
      · subst a
        simp only [Memory.read_cons]
        split <;> rfl
      · rename_i hk
        simp only [Memory.read_cons, ih]
        split
        · rename_i h
          subst h
          simp [Ne.symm hk]
        · rfl

@[simp] theorem Memory.read_write_same (m : Memory) (a : Nat) (b : Byte) :
    Memory.read (Memory.write m a b) a = some b := by simp [Memory.read_write]

theorem Memory.read_write_other (m : Memory) (a : Nat) (b : Byte) {i : Nat} (h : i ≠ a) :
    Memory.read (Memory.write m a b) i = Memory.read m i := by simp [Memory.read_write, h]

/-! ## The canonical form -/

theorem Memory.risesFrom_weaken {lo lo' : Nat} (h : lo' ≤ lo) {m : Memory}
    (hm : Memory.risesFrom lo m = true) : Memory.risesFrom lo' m = true := by
  cases m with
  | nil => rfl
  | cons c m =>
    simp only [Memory.risesFrom, Bool.and_eq_true, decide_eq_true_eq] at hm ⊢
    exact ⟨h.trans hm.1, hm.2⟩

theorem Memory.risesFrom_write {lo : Nat} {m : Memory} (hm : Memory.risesFrom lo m = true)
    {a : Nat} (ha : lo ≤ a) (b : Byte) : Memory.risesFrom lo (Memory.write m a b) = true := by
  induction m generalizing lo with
  | nil => simp [Memory.write, Memory.risesFrom, ha]
  | cons c m ih =>
    obtain ⟨k, v⟩ := c
    simp only [Memory.risesFrom, Bool.and_eq_true, decide_eq_true_eq] at hm
    unfold Memory.write
    split
    · rename_i hak
      simp only [Memory.risesFrom, Bool.and_eq_true, decide_eq_true_eq]
      exact ⟨ha, by omega, hm.2⟩
    · split
      · rename_i hk
        simp only [Memory.risesFrom, Bool.and_eq_true, decide_eq_true_eq]
        exact ⟨ha, hk ▸ hm.2⟩
      · simp only [Memory.risesFrom, Bool.and_eq_true, decide_eq_true_eq]
        exact ⟨hm.1, ih hm.2 (by omega)⟩

/-- A write keeps the canonical form. -/
theorem Memory.wf_write {m : Memory} (hm : Memory.wf m = true) (a : Nat) (b : Byte) :
    Memory.wf (Memory.write m a b) = true := Memory.risesFrom_write hm (Nat.zero_le a) b

theorem Memory.read_below {lo : Nat} {m : Memory} (hm : Memory.risesFrom lo m = true) {a : Nat}
    (ha : a < lo) : Memory.read m a = none := by
  induction m generalizing lo with
  | nil => rfl
  | cons c m ih =>
    simp only [Memory.risesFrom, Bool.and_eq_true, decide_eq_true_eq] at hm
    rw [Memory.read_cons, if_neg (by omega)]
    exact ih hm.2 (by omega)

/-- In canonical form, equal contents are equal data. -/
theorem Memory.ext_of_risesFrom {lo : Nat} {m n : Memory} (hm : Memory.risesFrom lo m = true)
    (hn : Memory.risesFrom lo n = true) (h : ∀ a, Memory.read m a = Memory.read n a) : m = n := by
  induction m generalizing lo n with
  | nil =>
    cases n with
    | nil => rfl
    | cons c n => exact absurd (h c.1) (by obtain ⟨k, v⟩ := c; simp [Memory.read_cons])
  | cons c m ih =>
    obtain ⟨k, v⟩ := c
    cases n with
    | nil => exact absurd (h k) (by simp [Memory.read_cons])
    | cons d n =>
      obtain ⟨k', v'⟩ := d
      simp only [Memory.risesFrom, Bool.and_eq_true, decide_eq_true_eq] at hm hn
      have hkk : k = k' := by
        have h1 := h k
        have h2 := h k'
        simp only [Memory.read_cons] at h1 h2
        by_contra hne
        rcases Nat.lt_or_gt_of_ne hne with hlt | hlt
        · simp [hne, Memory.read_below hn.2 (show k < k' + 1 by omega)] at h1
        · simp [Ne.symm hne, Memory.read_below hm.2 (show k' < k + 1 by omega)] at h2
      subst hkk
      have hv : v = v' := by simpa [Memory.read_cons] using h k
      subst hv
      have hrest : ∀ a, Memory.read m a = Memory.read n a := fun a => by
        by_cases ha : a = k
        · subst ha
          rw [Memory.read_below hm.2 (by omega), Memory.read_below hn.2 (by omega)]
        · simpa [Memory.read_cons, ha] using h a
      rw [ih hm.2 hn.2 hrest]

/-! ## Filling a span -/

/-- `x[i] <- t[i]` for `i = 0 .. len(t)-1`, at entries below `limit`: what the writes of a device command
leave (R190). -/
def Memory.fill (limit : Nat) : Memory → Nat → List Byte → Memory
  | m, _, [] => m
  | m, i, b :: bs => Memory.fill limit (if i < limit then Memory.write m i b else m) (i + 1) bs

theorem Memory.wf_fill (limit : Nat) (t : List Byte) {m : Memory} (hm : Memory.wf m = true)
    (i : Nat) : Memory.wf (Memory.fill limit m i t) = true := by
  induction t generalizing m i with
  | nil => exact hm
  | cons b t ih =>
    unfold Memory.fill
    split
    · exact ih (Memory.wf_write hm i b) _
    · exact ih hm _

theorem Memory.read_fill (limit : Nat) (t : List Byte) (m : Memory) (i a : Nat) :
    Memory.read (Memory.fill limit m i t) a =
      if i ≤ a ∧ a < i + t.length ∧ a < limit then t[a - i]? else Memory.read m a := by
  induction t generalizing m i with
  | nil =>
    simp only [Memory.fill, List.length_nil]
    rw [if_neg (by omega)]
  | cons b t ih =>
    unfold Memory.fill
    rw [ih]
    by_cases hai : a = i
    · subst hai
      rw [if_neg (by omega)]
      by_cases hl : a < limit <;> simp [hl]
    · have hother : Memory.read (if i < limit then Memory.write m i b else m) a = Memory.read m a := by
        split
        · exact Memory.read_write_other m i b hai
        · rfl
      rw [hother]
      by_cases hin : i + 1 ≤ a ∧ a < i + 1 + t.length ∧ a < limit
      · rw [if_pos hin, if_pos (by simp only [List.length_cons]; omega)]
        obtain ⟨j, rfl⟩ : ∃ j, a = i + 1 + j := ⟨a - (i + 1), by omega⟩
        rw [show i + 1 + j - (i + 1) = j from by omega, show i + 1 + j - i = j + 1 from by omega]
        rfl
      · rw [if_neg hin, if_neg (by simp only [List.length_cons]; omega)]

/-! ## Spans -/

theorem Memory.defined_iff (m : Memory) (n : Nat) :
    Memory.defined m n = true ↔ ∀ i < n, ∃ b, Memory.read m i = some b := by
  simp [Memory.defined, Option.isSome_iff_exists]

theorem Memory.defined_mono {m : Memory} {n k : Nat} (h : k ≤ n) (hd : Memory.defined m n = true) :
    Memory.defined m k = true :=
  (Memory.defined_iff m k).2 fun i hi => (Memory.defined_iff m n).1 hd i (by omega)

/-- Storing entry `n` extends a defined span by one. -/
theorem Memory.defined_write_succ {m : Memory} {n : Nat} (hd : Memory.defined m n = true) (b : Byte) :
    Memory.defined (Memory.write m n b) (n + 1) = true :=
  (Memory.defined_iff _ _).2 fun i hi => by
    by_cases h : i = n
    · exact ⟨b, by simp [h]⟩
    · rw [Memory.read_write_other m n b h]
      exact (Memory.defined_iff m n).1 hd i (by omega)

@[simp] theorem Memory.bytes_length (m : Memory) (d : Byte) (n : Nat) :
    (Memory.bytes m d n).length = n := by simp [Memory.bytes]

theorem Memory.bytes_getElem? (m : Memory) (d : Byte) (n i : Nat) :
    (Memory.bytes m d n)[i]? = if i < n then some (Memory.readD m d i) else none := by
  unfold Memory.bytes
  by_cases h : i < n <;> simp [h]

theorem Memory.readD_of_read {m : Memory} {i : Nat} {b : Byte} (h : Memory.read m i = some b)
    (d : Byte) : Memory.readD m d i = b := by simp [Memory.readD, h]

theorem Memory.readD_congr {m n : Memory} {i : Nat} (h : Memory.read m i = Memory.read n i) (d : Byte) :
    Memory.readD m d i = Memory.readD n d i := by simp [Memory.readD, h]

theorem Memory.bytes_congr {m n : Memory} {k : Nat} (d : Byte)
    (h : ∀ i < k, Memory.read m i = Memory.read n i) : Memory.bytes m d k = Memory.bytes n d k := by
  unfold Memory.bytes
  exact List.map_congr_left fun i hi => Memory.readD_congr (h i (List.mem_range.1 hi)) d

/-- A span that is defined reads the same whatever stands for an undefined entry. -/
theorem Memory.bytes_default {m : Memory} {n : Nat} (hd : Memory.defined m n = true) (d e : Byte) :
    Memory.bytes m d n = Memory.bytes m e n := by
  unfold Memory.bytes
  refine List.map_congr_left fun i hi => ?_
  obtain ⟨b, hb⟩ := (Memory.defined_iff m n).1 hd i (List.mem_range.1 hi)
  simp [Memory.readD, hb]

theorem Memory.readD_default {m : Memory} {n i : Nat} (hd : Memory.defined m n = true) (hi : i < n)
    (d e : Byte) : Memory.readD m d i = Memory.readD m e i := by
  obtain ⟨b, hb⟩ := (Memory.defined_iff m n).1 hd i hi
  simp [Memory.readD, hb]

/-- A span is the sequence its entries spell. -/
theorem Memory.bytes_eq_of_read {m : Memory} {p : List Byte} (d : Byte)
    (h : ∀ i (hi : i < p.length), Memory.read m i = some p[i]) : Memory.bytes m d p.length = p := by
  apply List.ext_getElem?
  intro i
  rw [Memory.bytes_getElem?]
  by_cases hi : i < p.length
  · simp [hi, Memory.readD_of_read (h i hi)]
  · simp [hi]

theorem Memory.bytes_succ (m : Memory) (d : Byte) (n : Nat) :
    Memory.bytes m d (n + 1) = Memory.bytes m d n ++ [Memory.readD m d n] := by
  simp [Memory.bytes, List.range_succ]

end Sys2Proof.Machine
end

