-- ==== Sys2Proof/Laws/State.lean ====
section
/-! SUPPORT. One lemma per field per named update of the state, so that no proof unfolds a record update. -/

namespace Sys2Proof.Machine

/-! ## `finish` -/

@[simp] theorem finish_cfg (code : ResultCode) (s : State) : (finish code s).cfg = s.cfg := rfl
@[simp] theorem finish_fsm (code : ResultCode) (s : State) : (finish code s).fsm = .idle := rfl
@[simp] theorem finish_idx (code : ResultCode) (s : State) : (finish code s).idx = 0 := rfl
@[simp] theorem finish_opr (code : ResultCode) (s : State) : (finish code s).opr = s.opr := rfl
@[simp] theorem finish_txlen (code : ResultCode) (s : State) : (finish code s).txlen = s.txlen := rfl
@[simp] theorem finish_rxlen (code : ResultCode) (s : State) : (finish code s).rxlen = s.rxlen := rfl
@[simp] theorem finish_timeout (code : ResultCode) (s : State) : (finish code s).timeout = s.timeout := rfl
@[simp] theorem finish_txbuf (code : ResultCode) (s : State) : (finish code s).txbuf = s.txbuf := rfl
@[simp] theorem finish_done (code : ResultCode) (s : State) : (finish code s).done = true := rfl
@[simp] theorem finish_result (code : ResultCode) (s : State) : (finish code s).result = code := rfl
@[simp] theorem finish_csumTx (code : ResultCode) (s : State) : (finish code s).csumTx = s.csumTx := rfl
@[simp] theorem finish_csumCalc (code : ResultCode) (s : State) : (finish code s).csumCalc = s.csumCalc := rfl
@[simp] theorem finish_csumWire (code : ResultCode) (s : State) : (finish code s).csumWire = s.csumWire := rfl
@[simp] theorem finish_txcnt (code : ResultCode) (s : State) : (finish code s).txcnt = s.txcnt := rfl
@[simp] theorem finish_rxcnt (code : ResultCode) (s : State) : (finish code s).rxcnt = s.rxcnt := rfl
@[simp] theorem finish_ackbyte (code : ResultCode) (s : State) : (finish code s).ackbyte = s.ackbyte := rfl
@[simp] theorem finish_ackvalid (code : ResultCode) (s : State) : (finish code s).ackvalid = s.ackvalid := rfl
@[simp] theorem finish_devstat (code : ResultCode) (s : State) : (finish code s).devstat = s.devstat := rfl
@[simp] theorem finish_version (code : ResultCode) (s : State) : (finish code s).version = s.version := rfl
@[simp] theorem finish_rxbuf (code : ResultCode) (s : State) : (finish code s).rxbuf = s.rxbuf := rfl
@[simp] theorem finish_tmr (code : ResultCode) (s : State) : (finish code s).tmr = s.tmr := rfl
@[simp] theorem finish_rxq (code : ResultCode) (s : State) : (finish code s).rxq = s.rxq := rfl
@[simp] theorem finish_wireTx (code : ResultCode) (s : State) : (finish code s).wireTx = s.wireTx := rfl
@[simp] theorem finish_host (code : ResultCode) (s : State) : (finish code s).host = s.host := rfl
@[simp] theorem finish_hostRd (code : ResultCode) (s : State) : (finish code s).hostRd = s.hostRd := rfl
@[simp] theorem finish_sched (code : ResultCode) (s : State) : (finish code s).sched = s.sched := rfl
@[simp] theorem finish_free (code : ResultCode) (s : State) : (finish code s).free = s.free := rfl

/-! ## `clearResults` -/

@[simp] theorem clearResults_cfg (s : State) : (clearResults s).cfg = s.cfg := rfl
@[simp] theorem clearResults_fsm (s : State) : (clearResults s).fsm = s.fsm := rfl
@[simp] theorem clearResults_idx (s : State) : (clearResults s).idx = 0 := rfl
@[simp] theorem clearResults_opr (s : State) : (clearResults s).opr = s.opr := rfl
@[simp] theorem clearResults_txlen (s : State) : (clearResults s).txlen = s.txlen := rfl
@[simp] theorem clearResults_rxlen (s : State) : (clearResults s).rxlen = s.rxlen := rfl
@[simp] theorem clearResults_timeout (s : State) : (clearResults s).timeout = s.timeout := rfl
@[simp] theorem clearResults_txbuf (s : State) : (clearResults s).txbuf = s.txbuf := rfl
@[simp] theorem clearResults_done (s : State) : (clearResults s).done = false := rfl
@[simp] theorem clearResults_result (s : State) : (clearResults s).result = .none := rfl
@[simp] theorem clearResults_csumTx (s : State) : (clearResults s).csumTx = 0 := rfl
@[simp] theorem clearResults_csumCalc (s : State) : (clearResults s).csumCalc = 0 := rfl
@[simp] theorem clearResults_csumWire (s : State) : (clearResults s).csumWire = 0 := rfl
@[simp] theorem clearResults_txcnt (s : State) : (clearResults s).txcnt = 0 := rfl
@[simp] theorem clearResults_rxcnt (s : State) : (clearResults s).rxcnt = 0 := rfl
@[simp] theorem clearResults_ackbyte (s : State) : (clearResults s).ackbyte = 0 := rfl
@[simp] theorem clearResults_ackvalid (s : State) : (clearResults s).ackvalid = false := rfl
@[simp] theorem clearResults_devstat (s : State) : (clearResults s).devstat = { code := .ok, valid := false, raw := 0 } := rfl
@[simp] theorem clearResults_version (s : State) : (clearResults s).version = 
      { model := 0, fw := 0, hw := 0, modelKnown := false, fwKnown := false, hwKnown := false,
        valid := false } := rfl
@[simp] theorem clearResults_rxbuf (s : State) : (clearResults s).rxbuf = s.rxbuf := rfl
@[simp] theorem clearResults_tmr (s : State) : (clearResults s).tmr = s.tmr := rfl
@[simp] theorem clearResults_rxq (s : State) : (clearResults s).rxq = s.rxq := rfl
@[simp] theorem clearResults_wireTx (s : State) : (clearResults s).wireTx = s.wireTx := rfl
@[simp] theorem clearResults_host (s : State) : (clearResults s).host = s.host := rfl
@[simp] theorem clearResults_hostRd (s : State) : (clearResults s).hostRd = s.hostRd := rfl
@[simp] theorem clearResults_sched (s : State) : (clearResults s).sched = s.sched := rfl
@[simp] theorem clearResults_free (s : State) : (clearResults s).free = s.free := rfl

/-! ## `beginOp` -/

@[simp] theorem beginOp_cfg (op : Byte) (s : State) : (beginOp op s).cfg = s.cfg := rfl
@[simp] theorem beginOp_fsm (op : Byte) (s : State) : (beginOp op s).fsm = s.fsm := rfl
@[simp] theorem beginOp_idx (op : Byte) (s : State) : (beginOp op s).idx = 0 := rfl
@[simp] theorem beginOp_opr (op : Byte) (s : State) : (beginOp op s).opr = op := rfl
@[simp] theorem beginOp_txlen (op : Byte) (s : State) : (beginOp op s).txlen = s.txlen := rfl
@[simp] theorem beginOp_rxlen (op : Byte) (s : State) : (beginOp op s).rxlen = s.rxlen := rfl
@[simp] theorem beginOp_timeout (op : Byte) (s : State) : (beginOp op s).timeout = s.timeout := rfl
@[simp] theorem beginOp_txbuf (op : Byte) (s : State) : (beginOp op s).txbuf = s.txbuf := rfl
@[simp] theorem beginOp_done (op : Byte) (s : State) : (beginOp op s).done = false := rfl
@[simp] theorem beginOp_result (op : Byte) (s : State) : (beginOp op s).result = .none := rfl
@[simp] theorem beginOp_csumTx (op : Byte) (s : State) : (beginOp op s).csumTx = 0 := rfl
@[simp] theorem beginOp_csumCalc (op : Byte) (s : State) : (beginOp op s).csumCalc = 0 := rfl
@[simp] theorem beginOp_csumWire (op : Byte) (s : State) : (beginOp op s).csumWire = 0 := rfl
@[simp] theorem beginOp_txcnt (op : Byte) (s : State) : (beginOp op s).txcnt = 0 := rfl
@[simp] theorem beginOp_rxcnt (op : Byte) (s : State) : (beginOp op s).rxcnt = 0 := rfl
@[simp] theorem beginOp_ackbyte (op : Byte) (s : State) : (beginOp op s).ackbyte = 0 := rfl
@[simp] theorem beginOp_ackvalid (op : Byte) (s : State) : (beginOp op s).ackvalid = false := rfl
@[simp] theorem beginOp_devstat (op : Byte) (s : State) : (beginOp op s).devstat = { code := .ok, valid := false, raw := 0 } := rfl
@[simp] theorem beginOp_version (op : Byte) (s : State) : (beginOp op s).version = 
      { model := 0, fw := 0, hw := 0, modelKnown := false, fwKnown := false, hwKnown := false,
        valid := false } := rfl
@[simp] theorem beginOp_rxbuf (op : Byte) (s : State) : (beginOp op s).rxbuf = s.rxbuf := rfl
@[simp] theorem beginOp_tmr (op : Byte) (s : State) : (beginOp op s).tmr = s.tmr := rfl
@[simp] theorem beginOp_rxq (op : Byte) (s : State) : (beginOp op s).rxq = s.rxq := rfl
@[simp] theorem beginOp_wireTx (op : Byte) (s : State) : (beginOp op s).wireTx = s.wireTx := rfl
@[simp] theorem beginOp_host (op : Byte) (s : State) : (beginOp op s).host = s.host := rfl
@[simp] theorem beginOp_hostRd (op : Byte) (s : State) : (beginOp op s).hostRd = s.hostRd := rfl
@[simp] theorem beginOp_sched (op : Byte) (s : State) : (beginOp op s).sched = s.sched := rfl
@[simp] theorem beginOp_free (op : Byte) (s : State) : (beginOp op s).free = s.free := rfl

/-! ## `rxFlush` -/

@[simp] theorem rxFlush_cfg (s : State) : (rxFlush s).cfg = s.cfg := rfl
@[simp] theorem rxFlush_fsm (s : State) : (rxFlush s).fsm = s.fsm := rfl
@[simp] theorem rxFlush_idx (s : State) : (rxFlush s).idx = s.idx := rfl
@[simp] theorem rxFlush_opr (s : State) : (rxFlush s).opr = s.opr := rfl
@[simp] theorem rxFlush_txlen (s : State) : (rxFlush s).txlen = s.txlen := rfl
@[simp] theorem rxFlush_rxlen (s : State) : (rxFlush s).rxlen = s.rxlen := rfl
@[simp] theorem rxFlush_timeout (s : State) : (rxFlush s).timeout = s.timeout := rfl
@[simp] theorem rxFlush_txbuf (s : State) : (rxFlush s).txbuf = s.txbuf := rfl
@[simp] theorem rxFlush_done (s : State) : (rxFlush s).done = s.done := rfl
@[simp] theorem rxFlush_result (s : State) : (rxFlush s).result = s.result := rfl
@[simp] theorem rxFlush_csumTx (s : State) : (rxFlush s).csumTx = s.csumTx := rfl
@[simp] theorem rxFlush_csumCalc (s : State) : (rxFlush s).csumCalc = s.csumCalc := rfl
@[simp] theorem rxFlush_csumWire (s : State) : (rxFlush s).csumWire = s.csumWire := rfl
@[simp] theorem rxFlush_txcnt (s : State) : (rxFlush s).txcnt = s.txcnt := rfl
@[simp] theorem rxFlush_rxcnt (s : State) : (rxFlush s).rxcnt = s.rxcnt := rfl
@[simp] theorem rxFlush_ackbyte (s : State) : (rxFlush s).ackbyte = s.ackbyte := rfl
@[simp] theorem rxFlush_ackvalid (s : State) : (rxFlush s).ackvalid = s.ackvalid := rfl
@[simp] theorem rxFlush_devstat (s : State) : (rxFlush s).devstat = s.devstat := rfl
@[simp] theorem rxFlush_version (s : State) : (rxFlush s).version = s.version := rfl
@[simp] theorem rxFlush_rxbuf (s : State) : (rxFlush s).rxbuf = s.rxbuf := rfl
@[simp] theorem rxFlush_tmr (s : State) : (rxFlush s).tmr = s.tmr := rfl
@[simp] theorem rxFlush_rxq (s : State) : (rxFlush s).rxq = [] := rfl
@[simp] theorem rxFlush_wireTx (s : State) : (rxFlush s).wireTx = s.wireTx := rfl
@[simp] theorem rxFlush_host (s : State) : (rxFlush s).host = s.host := rfl
@[simp] theorem rxFlush_hostRd (s : State) : (rxFlush s).hostRd = s.hostRd := rfl
@[simp] theorem rxFlush_sched (s : State) : (rxFlush s).sched = s.sched := rfl
@[simp] theorem rxFlush_free (s : State) : (rxFlush s).free = s.free := rfl

/-! ## `devSend` -/

@[simp] theorem devSend_cfg (b : Byte) (s : State) : (devSend b s).cfg = s.cfg := rfl
@[simp] theorem devSend_fsm (b : Byte) (s : State) : (devSend b s).fsm = s.fsm := rfl
@[simp] theorem devSend_idx (b : Byte) (s : State) : (devSend b s).idx = s.idx := rfl
@[simp] theorem devSend_opr (b : Byte) (s : State) : (devSend b s).opr = s.opr := rfl
@[simp] theorem devSend_txlen (b : Byte) (s : State) : (devSend b s).txlen = s.txlen := rfl
@[simp] theorem devSend_rxlen (b : Byte) (s : State) : (devSend b s).rxlen = s.rxlen := rfl
@[simp] theorem devSend_timeout (b : Byte) (s : State) : (devSend b s).timeout = s.timeout := rfl
@[simp] theorem devSend_txbuf (b : Byte) (s : State) : (devSend b s).txbuf = s.txbuf := rfl
@[simp] theorem devSend_done (b : Byte) (s : State) : (devSend b s).done = s.done := rfl
@[simp] theorem devSend_result (b : Byte) (s : State) : (devSend b s).result = s.result := rfl
@[simp] theorem devSend_csumTx (b : Byte) (s : State) : (devSend b s).csumTx = s.csumTx := rfl
@[simp] theorem devSend_csumCalc (b : Byte) (s : State) : (devSend b s).csumCalc = s.csumCalc := rfl
@[simp] theorem devSend_csumWire (b : Byte) (s : State) : (devSend b s).csumWire = s.csumWire := rfl
@[simp] theorem devSend_txcnt (b : Byte) (s : State) : (devSend b s).txcnt = s.txcnt := rfl
@[simp] theorem devSend_rxcnt (b : Byte) (s : State) : (devSend b s).rxcnt = s.rxcnt := rfl
@[simp] theorem devSend_ackbyte (b : Byte) (s : State) : (devSend b s).ackbyte = s.ackbyte := rfl
@[simp] theorem devSend_ackvalid (b : Byte) (s : State) : (devSend b s).ackvalid = s.ackvalid := rfl
@[simp] theorem devSend_devstat (b : Byte) (s : State) : (devSend b s).devstat = s.devstat := rfl
@[simp] theorem devSend_version (b : Byte) (s : State) : (devSend b s).version = s.version := rfl
@[simp] theorem devSend_rxbuf (b : Byte) (s : State) : (devSend b s).rxbuf = s.rxbuf := rfl
@[simp] theorem devSend_tmr (b : Byte) (s : State) : (devSend b s).tmr = s.tmr := rfl
@[simp] theorem devSend_rxq (b : Byte) (s : State) : (devSend b s).rxq = s.rxq ++ [b] := rfl
@[simp] theorem devSend_wireTx (b : Byte) (s : State) : (devSend b s).wireTx = s.wireTx := rfl
@[simp] theorem devSend_host (b : Byte) (s : State) : (devSend b s).host = s.host := rfl
@[simp] theorem devSend_hostRd (b : Byte) (s : State) : (devSend b s).hostRd = s.hostRd := rfl
@[simp] theorem devSend_sched (b : Byte) (s : State) : (devSend b s).sched = s.sched := rfl
@[simp] theorem devSend_free (b : Byte) (s : State) : (devSend b s).free = s.free := rfl

/-! ## `takeByte` -/

@[simp] theorem takeByte_cfg (rest : List Byte) (s : State) : (takeByte rest s).cfg = s.cfg := rfl
@[simp] theorem takeByte_fsm (rest : List Byte) (s : State) : (takeByte rest s).fsm = s.fsm := rfl
@[simp] theorem takeByte_idx (rest : List Byte) (s : State) : (takeByte rest s).idx = s.idx := rfl
@[simp] theorem takeByte_opr (rest : List Byte) (s : State) : (takeByte rest s).opr = s.opr := rfl
@[simp] theorem takeByte_txlen (rest : List Byte) (s : State) : (takeByte rest s).txlen = s.txlen := rfl
@[simp] theorem takeByte_rxlen (rest : List Byte) (s : State) : (takeByte rest s).rxlen = s.rxlen := rfl
@[simp] theorem takeByte_timeout (rest : List Byte) (s : State) : (takeByte rest s).timeout = s.timeout := rfl
@[simp] theorem takeByte_txbuf (rest : List Byte) (s : State) : (takeByte rest s).txbuf = s.txbuf := rfl
@[simp] theorem takeByte_done (rest : List Byte) (s : State) : (takeByte rest s).done = s.done := rfl
@[simp] theorem takeByte_result (rest : List Byte) (s : State) : (takeByte rest s).result = s.result := rfl
@[simp] theorem takeByte_csumTx (rest : List Byte) (s : State) : (takeByte rest s).csumTx = s.csumTx := rfl
@[simp] theorem takeByte_csumCalc (rest : List Byte) (s : State) : (takeByte rest s).csumCalc = s.csumCalc := rfl
@[simp] theorem takeByte_csumWire (rest : List Byte) (s : State) : (takeByte rest s).csumWire = s.csumWire := rfl
@[simp] theorem takeByte_txcnt (rest : List Byte) (s : State) : (takeByte rest s).txcnt = s.txcnt := rfl
@[simp] theorem takeByte_rxcnt (rest : List Byte) (s : State) : (takeByte rest s).rxcnt = s.rxcnt + 1 := rfl
@[simp] theorem takeByte_ackbyte (rest : List Byte) (s : State) : (takeByte rest s).ackbyte = s.ackbyte := rfl
@[simp] theorem takeByte_ackvalid (rest : List Byte) (s : State) : (takeByte rest s).ackvalid = s.ackvalid := rfl
@[simp] theorem takeByte_devstat (rest : List Byte) (s : State) : (takeByte rest s).devstat = s.devstat := rfl
@[simp] theorem takeByte_version (rest : List Byte) (s : State) : (takeByte rest s).version = s.version := rfl
@[simp] theorem takeByte_rxbuf (rest : List Byte) (s : State) : (takeByte rest s).rxbuf = s.rxbuf := rfl
@[simp] theorem takeByte_tmr (rest : List Byte) (s : State) : (takeByte rest s).tmr = s.tmr := rfl
@[simp] theorem takeByte_rxq (rest : List Byte) (s : State) : (takeByte rest s).rxq = rest := rfl
@[simp] theorem takeByte_wireTx (rest : List Byte) (s : State) : (takeByte rest s).wireTx = s.wireTx := rfl
@[simp] theorem takeByte_host (rest : List Byte) (s : State) : (takeByte rest s).host = s.host := rfl
@[simp] theorem takeByte_hostRd (rest : List Byte) (s : State) : (takeByte rest s).hostRd = s.hostRd := rfl
@[simp] theorem takeByte_sched (rest : List Byte) (s : State) : (takeByte rest s).sched = s.sched := rfl
@[simp] theorem takeByte_free (rest : List Byte) (s : State) : (takeByte rest s).free = s.free := rfl

/-! ## `logTx` -/

@[simp] theorem logTx_cfg (b : Byte) (s : State) : (logTx b s).cfg = s.cfg := rfl
@[simp] theorem logTx_fsm (b : Byte) (s : State) : (logTx b s).fsm = s.fsm := rfl
@[simp] theorem logTx_idx (b : Byte) (s : State) : (logTx b s).idx = s.idx := rfl
@[simp] theorem logTx_opr (b : Byte) (s : State) : (logTx b s).opr = s.opr := rfl
@[simp] theorem logTx_txlen (b : Byte) (s : State) : (logTx b s).txlen = s.txlen := rfl
@[simp] theorem logTx_rxlen (b : Byte) (s : State) : (logTx b s).rxlen = s.rxlen := rfl
@[simp] theorem logTx_timeout (b : Byte) (s : State) : (logTx b s).timeout = s.timeout := rfl
@[simp] theorem logTx_txbuf (b : Byte) (s : State) : (logTx b s).txbuf = s.txbuf := rfl
@[simp] theorem logTx_done (b : Byte) (s : State) : (logTx b s).done = s.done := rfl
@[simp] theorem logTx_result (b : Byte) (s : State) : (logTx b s).result = s.result := rfl
@[simp] theorem logTx_csumTx (b : Byte) (s : State) : (logTx b s).csumTx = s.csumTx := rfl
@[simp] theorem logTx_csumCalc (b : Byte) (s : State) : (logTx b s).csumCalc = s.csumCalc := rfl
@[simp] theorem logTx_csumWire (b : Byte) (s : State) : (logTx b s).csumWire = s.csumWire := rfl
@[simp] theorem logTx_txcnt (b : Byte) (s : State) : (logTx b s).txcnt = s.txcnt + 1 := rfl
@[simp] theorem logTx_rxcnt (b : Byte) (s : State) : (logTx b s).rxcnt = s.rxcnt := rfl
@[simp] theorem logTx_ackbyte (b : Byte) (s : State) : (logTx b s).ackbyte = s.ackbyte := rfl
@[simp] theorem logTx_ackvalid (b : Byte) (s : State) : (logTx b s).ackvalid = s.ackvalid := rfl
@[simp] theorem logTx_devstat (b : Byte) (s : State) : (logTx b s).devstat = s.devstat := rfl
@[simp] theorem logTx_version (b : Byte) (s : State) : (logTx b s).version = s.version := rfl
@[simp] theorem logTx_rxbuf (b : Byte) (s : State) : (logTx b s).rxbuf = s.rxbuf := rfl
@[simp] theorem logTx_tmr (b : Byte) (s : State) : (logTx b s).tmr = s.tmr := rfl
@[simp] theorem logTx_rxq (b : Byte) (s : State) : (logTx b s).rxq = s.rxq := rfl
@[simp] theorem logTx_wireTx (b : Byte) (s : State) : (logTx b s).wireTx = s.wireTx ++ [b] := rfl
@[simp] theorem logTx_host (b : Byte) (s : State) : (logTx b s).host = s.host := rfl
@[simp] theorem logTx_hostRd (b : Byte) (s : State) : (logTx b s).hostRd = s.hostRd := rfl
@[simp] theorem logTx_sched (b : Byte) (s : State) : (logTx b s).sched = s.sched := rfl
@[simp] theorem logTx_free (b : Byte) (s : State) : (logTx b s).free = s.free := rfl

end Sys2Proof.Machine
end

