-- ==== Sys2Proof/Laws/Operations.lean ====
section
/-! SUPPORT. One spec lemma per shared operation and case; callers cite these and do not unfold. -/

namespace Sys2Proof.Machine

/-! ## Launches -/

theorem whenIdle_idle {s : State} (h : s.fsm = .idle) (k : Host.Outcome State Fault Refusal) :
    whenIdle s k = k := if_pos h

theorem whenIdle_busy {s : State} (h : s.fsm ≠ .idle) (k : Host.Outcome State Fault Refusal) :
    whenIdle s k = .next s := if_neg h

/-- What a launch does does not depend on what `clear_results()` clears. -/
theorem beginOp_clearResults (op : Byte) (s : State) : beginOp op (clearResults s) = beginOp op s := rfl

theorem payload_of_read {s : State} {p : List Byte} (hl : p.length = s.txlen.toNat)
    (h : ∀ i (hi : i < p.length), Memory.read s.txbuf i = some p[i]) : payload s = p := by
  unfold payload
  rw [← hl]
  exact Memory.bytes_eq_of_read _ h

theorem launchExec_tooLong {s : State} (h : s.cfg.maxPayload < s.txlen.toNat) :
    launchExec s = .next (finish .encodingError s) := if_pos h

theorem launchExec_ready {s : State} (h : s.txlen.toNat ≤ s.cfg.maxPayload)
    (hd : Memory.defined s.txbuf s.txlen.toNat = true) :
    launchExec s =
      .next { s with
        csumTx := Config.csum16 (payload s)
        rxq := if s.cfg.flushOnExec then [] else s.rxq
        idx := 0
        fsm := .sending } := by
  rw [launchExec, if_neg (Nat.not_lt.2 h), if_pos hd]

theorem launchExec_unwritten {s : State} (h : s.txlen.toNat ≤ s.cfg.maxPayload)
    (hd : Memory.defined s.txbuf s.txlen.toNat ≠ true) :
    launchExec s = .fault .txbufUnwritten := by
  rw [launchExec, if_neg (Nat.not_lt.2 h), if_neg hd]

theorem launchRx_illegal {len : Nat} {s : State} (h : len < 2 ∨ s.cfg.rxBufSize < len) :
    launchRx len s = finish .encodingError s := if_pos h

theorem launchRx_legal {len : Nat} {s : State} (h2 : 2 ≤ len) (h : len ≤ s.cfg.rxBufSize) :
    launchRx len s = { s with idx := 0, tmr := s.timeout, fsm := .receiving } :=
  if_neg (by omega)

/-! ## Sending -/

theorem sendAccepted_last {s : State} (h : s.idx.toNat = s.txlen.toNat + 3) :
    sendAccepted s =
      { logTx (txByte s s.idx.toNat) s with idx := 0, tmr := s.timeout, fsm := .awaitAck } := if_pos h

theorem sendAccepted_more {s : State} (h : s.idx.toNat ≠ s.txlen.toNat + 3) :
    sendAccepted s = { logTx (txByte s s.idx.toNat) s with idx := s.idx + 1 } := if_neg h

/-- What `tx_byte` depends on. -/
theorem txByte_congr {s t : State} (hl : s.txlen = t.txlen) (hb : s.txbuf = t.txbuf)
    (hc : s.csumTx = t.csumTx) (hf : s.free = t.free) (i : Nat) : txByte s i = txByte t i := by
  simp only [txByte, undefinedByte, hl, hb, hc, hf]

/-- The bytes offered one by one spell the frame (R95). -/
theorem offeredFrame_eq_txFrame {s : State} (hc : s.csumTx = Config.csum16 (payload s)) :
    offeredFrame s = txFrame (payload s) := by
  have hlen : (payload s).length = s.txlen.toNat := by simp [payload]
  apply List.ext_getElem?
  intro i
  unfold offeredFrame
  by_cases hi : i < s.txlen.toNat + 4
  · rw [List.getElem?_map, List.getElem?_range hi, Option.map_some]
    unfold txFrame txByte
    by_cases h0 : i = 0
    · subst h0; rfl
    · obtain ⟨j, rfl⟩ : ∃ j, i = j + 1 := ⟨i - 1, by omega⟩
      rw [if_neg h0, List.append_assoc, List.append_assoc, List.singleton_append,
        List.getElem?_cons_succ, Nat.add_sub_cancel]
      by_cases h1 : j + 1 ≤ s.txlen.toNat
      · rw [if_pos h1, List.getElem?_append_left (by omega), payload, Memory.bytes_getElem?,
          if_pos (by omega)]
      · rw [if_neg h1, List.getElem?_append_right (by omega), hlen, ← hc]
        obtain ⟨k, rfl⟩ : ∃ k, j = s.txlen.toNat + k := ⟨j - s.txlen.toNat, by omega⟩
        rw [Nat.add_sub_cancel_left]
        have hk : k = 0 ∨ k = 1 ∨ k = 2 := by omega
        rcases hk with rfl | rfl | rfl <;> simp [trailer]
  · rw [List.getElem?_eq_none (by simp; omega), List.getElem?_eq_none (by simp; omega)]

/-! ## Receiving -/

theorem finishRx_eq (code : ResultCode) (s : State) :
    finishRx code s =
      { s with
        devstat := if s.opr = 0x03 then { code := .error, valid := true, raw := 0 } else s.devstat
        result := code, done := true, idx := 0, fsm := .idle } := by
  unfold finishRx finish
  split <;> rfl

theorem recvByte_more {b : Byte} {rest : List Byte} {s : State}
    (h : s.idx.toNat + 1 ≠ frameLen s) :
    recvByte b rest s =
      { takeByte rest s with
        rxbuf := Memory.write s.rxbuf s.idx.toNat b, idx := s.idx + 1 } := if_neg h

theorem recvByte_last {b : Byte} {rest : List Byte} {s : State}
    (h : s.idx.toNat + 1 = frameLen s) :
    recvByte b rest s =
      { takeByte rest s with
        rxbuf := Memory.write s.rxbuf s.idx.toNat b
        csumCalc :=
          (verify (Memory.bytes (Memory.write s.rxbuf s.idx.toNat b) (undefinedByte s) (frameLen s))).2.1
        csumWire :=
          (verify (Memory.bytes (Memory.write s.rxbuf s.idx.toNat b) (undefinedByte s) (frameLen s))).2.2
        idx := 0, fsm := .replying } := if_pos h

/-- `verify` on a frame taken apart (R97). -/
theorem verify_append (body : List Byte) (hi lo : Byte) :
    verify (body ++ [hi, lo]) =
      (decide (Config.csum16 body = be16 hi lo), Config.csum16 body, be16 hi lo) := by
  have hlen : (body ++ [hi, lo]).length - 2 = body.length := by simp
  have hlast : (body ++ [hi, lo]).drop ((body ++ [hi, lo]).length - 1) = [lo] := by
    rw [show body ++ [hi, lo] = (body ++ [hi]) ++ [lo] by simp, List.drop_left' (by simp)]
  unfold verify
  simp only [hlast, hlen]
  rw [List.take_left' rfl, List.drop_left' rfl]
  rfl

/-! ## The poll and the offer, by sequencing state -/

theorem poll_awaitAck_err {s : State} (h : s.fsm = .awaitAck) : poll true s = ackError s := by
  simp only [poll, h, if_true]

theorem poll_awaitAck_byte {s : State} {b : Byte} {rest : List Byte} (h : s.fsm = .awaitAck)
    (hq : s.rxq = b :: rest) : poll false s = ackByte b rest s := by
  simp only [poll, h, hq, Bool.false_eq_true, if_false]

theorem poll_awaitAck_none {s : State} (h : s.fsm = .awaitAck) (hq : s.rxq = []) :
    poll false s = if s.tmr = 0 then ackTimeout s else s := by
  simp only [poll, h, hq, Bool.false_eq_true, if_false]

theorem poll_receiving_err {s : State} (h : s.fsm = .receiving) : poll true s = recvError s := by
  simp only [poll, h, if_true]

theorem poll_receiving_byte {s : State} {b : Byte} {rest : List Byte} (h : s.fsm = .receiving)
    (hq : s.rxq = b :: rest) : poll false s = recvByte b rest s := by
  simp only [poll, h, hq, Bool.false_eq_true, if_false]

theorem poll_receiving_none {s : State} (h : s.fsm = .receiving) (hq : s.rxq = []) :
    poll false s = if s.tmr = 0 then recvTimeout s else s := by
  simp only [poll, h, hq, Bool.false_eq_true, if_false]

theorem polling_iff (s : State) : polling s = true ↔ s.fsm = .awaitAck ∨ s.fsm = .receiving := by
  unfold polling
  cases s.fsm <;> simp

/-- Where the engine does not poll, a poll is no step (R72, R208). -/
theorem poll_off {s : State} (h : polling s = false) (err : Bool) : poll err s = s := by
  unfold polling at h
  unfold poll
  cases hs : s.fsm <;> simp_all

theorem offerAccepted_sending {s : State} (h : s.fsm = .sending) :
    offerAccepted s = sendAccepted s := by simp only [offerAccepted, h]

theorem offerAccepted_replying {s : State} (h : s.fsm = .replying) :
    offerAccepted s = replyAccepted s := by simp only [offerAccepted, h]

theorem offerFailed_sending {s : State} (h : s.fsm = .sending) :
    offerFailed s = sendFailed s := by simp only [offerFailed, h]

theorem offerFailed_replying {s : State} (h : s.fsm = .replying) :
    offerFailed s = replyFailed s := by simp only [offerFailed, h]

/-- Where nothing is offered, an answer of the transport is no step (R208). -/
theorem offer_off {s : State} (h : s.fsm ≠ .sending ∧ s.fsm ≠ .replying) :
    offerAccepted s = s ∧ offerFailed s = s := by
  unfold offerAccepted offerFailed
  cases hs : s.fsm <;> simp_all

/-- A byte that is not the one polled does not move. -/
theorem crossByte_taken_off {b : Byte} {s : State}
    (h : polling s = false ∨ s.rxq.head? ≠ some b) : crossByte .taken b s = s := by
  simp only [crossByte]
  split
  · exact h.elim (fun hp => poll_off hp false) fun hb => absurd ‹_› hb
  · rfl

/-! ## Runs of bytes -/

theorem devSendRun_nil (s : State) : devSendRun [] s = s := rfl

theorem devSendRun_cons (b : Byte) (bs : List Byte) (s : State) :
    devSendRun (b :: bs) s = devSend b { s with sched := bs.map .dev ++ s.sched } := rfl

theorem sendAccepted_sched (s : State) (ms : List Move) :
    sendAccepted { s with sched := ms } = { sendAccepted s with sched := ms } := by
  unfold sendAccepted
  split <;> rfl

/-- What is left of the frame is accepted as the byte on offer, with the other bytes as the next moves. -/
theorem acceptFrame_sending {s : State} (h : s.fsm = .sending) :
    acceptFrame s =
      sendAccepted { s with sched := List.replicate (remaining s - 1) .txAccept ++ s.sched } := by
  rw [acceptFrame, if_pos h]
  exact (sendAccepted_sched s _).symm

theorem acceptFrame_off {s : State} (h : s.fsm ≠ .sending) : acceptFrame s = s := if_neg h

/-! ## Device commands -/

/-- The lines of a device command begin with a write that is no launch. -/
theorem commandLines_cons (c : Config) (t : List Byte) :
    ∃ a v rest, a.toNat ≠ 0 ∧ commandLines c t = .wr a v :: rest := by
  unfold commandLines
  cases t.take c.maxPayload with
  | nil => exact ⟨_, _, _, by decide, rfl⟩
  | cons b bs =>
    exact ⟨BitVec.ofNat 10 (0x100 + 0), _, _, by decide, by rw [List.mapIdx_cons, List.cons_append]⟩

/-- A device command performs the first of its lines and leaves the others to the host. -/
theorem submit_eq {t : List Byte} {s : State} {a : BitVec 10} {v : Word} {rest : List HostLine}
    (h : commandLines s.cfg t = .wr a v :: rest) :
    submit t s = .next (regWrite a v { s with host := rest ++ s.host }) := by
  rw [submit, h]
  rfl

end Sys2Proof.Machine
end

