-- ==== Sys2Proof/Laws/Step.lean ====
section
/-! SUPPORT. What a step does, move by move: each lemma says all of it. -/

namespace Sys2Proof.Machine

variable {s : State} {ms : List Move}

/-- With no move left no agent acts. -/
theorem step_idle (h : s.sched = []) : step s = .next s := by
  simp only [step, fetch, plainMove, h]

/-- A byte from the device is queued, whether or not it is a row of the table. -/
theorem step_dev {b : Byte} (h : s.sched = .dev b :: ms) :
    step s = .next (devSend b { s with sched := ms }) := by
  simp only [step, fetch, h, runEncoded, advance, decode]
  split
  · rename_i i hi
    rcases (decodeWireByte_iff _ _ _).1 hi with ⟨rfl, rfl⟩ | ⟨rfl, rfl⟩ | ⟨rfl, rfl⟩ | ⟨rfl, rfl⟩ <;> rfl
  · rfl

/-- A run of bytes from the device goes onto the line, whether or not it is a report frame. -/
theorem step_devFrame {f : List Byte} (h : s.sched = .devFrame f :: ms) :
    step s = .next (devSendRun f { s with sched := ms }) := by
  simp only [step, fetch, h, runEncoded, advance, decode]
  split
  · rename_i i hi
    obtain ⟨body, rfl, rfl, -⟩ := (decodeRxFrame_iff _ _ _).1 hi
    rfl
  · rfl

theorem step_tick (h : s.sched = .tick :: ms) :
    step s = .next (tick { s with sched := ms }) := by
  simp only [step, fetch, plainMove, h]

theorem crossByte_accepted {b : Byte} (h : offered s = some b) :
    crossByte .accepted b s = offerAccepted s := if_pos h

/-- The transport accepts the byte on offer, whether or not it is a row of the table. -/
theorem step_txAccept (h : s.sched = .txAccept :: ms) :
    step s = .next (offerAccepted { s with sched := ms }) := by
  have hoff : offered { s with sched := ms } = offered s := rfl
  simp only [step, fetch, h]
  cases ho : offered s with
  | none =>
    simp only [Option.map_none, plainMove, h]
  | some b =>
    have hc := crossByte_accepted (hoff.trans ho)
    simp only [Option.map_some, runEncoded, advance, h, decode]
    split
    · rename_i i hi
      rcases (decodeWireByte_iff _ _ _).1 hi with ⟨rfl, rfl⟩ | ⟨rfl, rfl⟩ | ⟨rfl, rfl⟩ | ⟨rfl, rfl⟩ <;>
        exact congrArg _ hc
    · exact congrArg _ hc

theorem step_txFail (h : s.sched = .txFail :: ms) :
    step s = .next (offerFailed { s with sched := ms }) := by
  simp only [step, fetch, plainMove, h]

theorem crossByte_taken {b : Byte} (h : s.rxq.head? = some b) :
    crossByte .taken b s = poll false s := if_pos h

/-- The engine polls, whether or not the byte it finds is a row of the table. -/
theorem step_rxPoll (h : s.sched = .rxPoll :: ms) :
    step s = .next (poll false { s with sched := ms }) := by
  simp only [step, fetch, h]
  by_cases hp : polling s = true
  · rw [if_pos hp]
    cases hq : s.rxq.head? with
    | none => simp only [Option.map_none, plainMove, h]
    | some b =>
      have hc : crossByte .taken b { s with sched := ms } = poll false { s with sched := ms } :=
        crossByte_taken hq
      simp only [Option.map_some, runEncoded, advance, h, decode]
      split
      · rename_i i hi
        rcases (decodeWireByte_iff _ _ _).1 hi with ⟨rfl, rfl⟩ | ⟨rfl, rfl⟩ | ⟨rfl, rfl⟩ | ⟨rfl, rfl⟩ <;>
          exact congrArg _ hc
      · exact congrArg _ hc
  · rw [if_neg hp]
    simp only [plainMove, h]

theorem step_rxErr (h : s.sched = .rxErr :: ms) :
    step s = .next (poll true { s with sched := ms }) := by
  simp only [step, fetch, plainMove, h]

theorem step_reset (h : s.sched = .reset :: ms) :
    step s = .next (resetPin { s with sched := ms }) := by
  simp only [step, fetch, plainMove, h]

/-- The transport accepts what is left of the frame in flight, whether or not it is a command frame. -/
theorem step_txFrame (h : s.sched = .txFrame :: ms) :
    step s = .next (acceptFrame { s with sched := ms }) := by
  have hfr : offeredFrame { s with sched := ms } = offeredFrame s := rfl
  simp only [step, fetch, h]
  by_cases hc : s.fsm = .sending ∧ s.idx = 0
  · rw [if_pos hc]
    simp only [runEncoded, advance, h, decode]
    split
    · rename_i i hd
      obtain ⟨p, rfl, hp, -⟩ := (decodeTxFrame_iff _ _ _).1 hd
      exact if_pos ⟨hc.1, hc.2, hfr.trans hp⟩
    · rfl
  · rw [if_neg hc]
    simp only [plainMove, h]

/-! ## The host's moves -/

variable {ls : List HostLine}

theorem step_host_none (h : s.sched = .host :: ms) (hh : s.host = []) :
    step s = .next { s with sched := ms } := by
  simp only [step, fetch, plainMove, hostLine, h, hh, List.head?_nil, Option.bind_none]

theorem regAt_cmd_iff (c : Config) (a : BitVec 10) : regAt c a = .cmd ↔ a.toNat = 0 := by
  constructor
  · intro h
    unfold regAt at h
    split at h <;> try (first | assumption | cases h)
    split at h
    · cases h
    · split at h <;> cases h
  · intro h
    simp only [regAt, h]

theorem regAt_txbuf_iff (c : Config) (a : BitVec 10) (i : Nat) :
    regAt c a = .txbuf i ↔ a.toNat = 0x100 + i ∧ i < c.maxPayload := by
  constructor
  · intro h
    unfold regAt at h
    split at h <;> try cases h
    split at h
    · injection h
      omega
    · split at h <;> cases h
  · rintro ⟨ha, hi⟩
    unfold regAt
    split <;> try omega
    rw [if_pos (by omega)]
    exact congrArg Reg.txbuf (by omega)

theorem regAt_high (c : Config) {a : BitVec 10} (h : 0x00C ≤ a.toNat) :
    regAt c a =
      if 0x100 ≤ a.toNat ∧ a.toNat < 0x100 + c.maxPayload then .txbuf (a.toNat - 0x100)
      else if 0x200 ≤ a.toNat ∧ a.toNat < 0x200 + c.rxBufSize then .rxbuf (a.toNat - 0x200)
      else .reserved := by
  unfold regAt
  split <;> first | omega | rfl

/-- While an operation is in flight no code launches one (R64). -/
theorem exec_decodeCmd_busy (w : Word) (hs : s.fsm ≠ .idle) : exec (decodeCmd w) s = .next s := by
  unfold decodeCmd
  split <;> first | rfl | exact whenIdle_busy hs _

/-- A write to `CMD` is the launch its low byte names (R110). -/
theorem step_host_cmd {a : BitVec 10} {v : Word} (h : s.sched = .host :: ms)
    (hh : s.host = .wr a v :: ls) (ha : a.toNat = 0) :
    step s = exec (decodeCmd v) { s with sched := ms, host := ls } := by
  have hr := (regAt_cmd_iff s.cfg a).2 ha
  simp only [step, fetch, h, hh, List.head?_cons, Option.bind_some, fetchLine, hr, runEncoded, decode,
    advance, List.tail_cons]

theorem regWrite_payload0 {a : BitVec 10} (h : regAt s.cfg a = .txbuf 0) {v w : Word}
    (hv : lowByte v = lowByte w) : regWrite a v s = regWrite 0x100 w s := by
  have h0 : regAt s.cfg 0x100 = .txbuf 0 := by
    rw [regAt_txbuf_iff] at h ⊢
    exact ⟨rfl, h.2⟩
  simp only [regWrite, h, h0, writeReg, hv]

/-- A write to any other index is `RegWrite` (R63), whether or not it is a class marker. -/
theorem step_host_wr {a : BitVec 10} {v : Word} (h : s.sched = .host :: ms)
    (hh : s.host = .wr a v :: ls) (ha : a.toNat ≠ 0) :
    step s = .next (regWrite a v { s with sched := ms, host := ls }) := by
  have hcmd : regAt s.cfg a ≠ .cmd := fun hc => ha ((regAt_cmd_iff s.cfg a).1 hc)
  by_cases h0 : regAt s.cfg a = .txbuf 0
  · have hreg : regAt ({ s with sched := ms, host := ls } : State).cfg a = .txbuf 0 := h0
    simp only [step, fetch, h, hh, List.head?_cons, Option.bind_some, fetchLine, h0, runEncoded, decode,
      advance, List.tail_cons]
    split
    · rename_i i hi
      rcases (decodePayloadByte0_iff _ _).1 hi with ⟨hb, rfl⟩ | ⟨hb, rfl⟩ <;>
        exact congrArg _ (regWrite_payload0 hreg (by rw [hb]; rfl)).symm
    · exact congrArg _ (regWrite_payload0 hreg (by rw [lowByte_setWidth])).symm
  · have hf : fetchLine s.cfg (.wr a v) = none := by
      rw [fetchLine]
      split <;> first | contradiction | rfl
    simp only [step, fetch, h, hh, List.head?_cons, Option.bind_some, hf, plainMove, hostLine]

theorem step_host_rd {a : BitVec 10} (h : s.sched = .host :: ms) (hh : s.host = .rd a :: ls) :
    step s = .next (hostRead a { s with sched := ms, host := ls }) := by
  simp only [step, fetch, h, hh, List.head?_cons, Option.bind_some, fetchLine, plainMove, hostLine]

theorem step_host_wait (h : s.sched = .host :: ms) (hh : s.host = .wait :: ls) :
    step s =
      .next (hostRead 0x001
        (if s.done then { s with sched := ms, host := ls } else { s with sched := ms })) := by
  simp only [step, fetch, h, hh, List.head?_cons, Option.bind_some, fetchLine, plainMove, hostLine]

/-- A device command of the host's program runs its row of the table. -/
theorem step_host_pseudo {l : PseudoLine} (h : s.sched = .host :: ms)
    (hh : s.host = .pseudo l :: ls) :
    step s = exec (decodePseudo l) { s with sched := ms, host := ls } := by
  simp only [step, fetch, h, hh, List.head?_cons, Option.bind_some, fetchLine, runEncoded, decode,
    advance, List.tail_cons]

end Sys2Proof.Machine
end

