-- ==== Sys2Proof/Laws/Runs.lean ====
section
/-! SUPPORT. Runs of offers, of device bytes and of payload writes, the two spans of a received frame, and the parts of the
invariant by sequencing state. -/

namespace Sys2Proof.Machine

/-! ## The invariant, by sequencing state -/

theorem State.Inv.sending {s : State} (h : s.Inv) (hs : s.fsm = .sending) : s.Sending := by
  have := h.sequenced
  simpa only [State.Sequenced, hs] using this

theorem State.Inv.awaiting {s : State} (h : s.Inv) (hs : s.fsm = .awaitAck) : s.Awaiting := by
  have := h.sequenced
  simpa only [State.Sequenced, hs] using this

theorem State.Inv.receiving {s : State} (h : s.Inv) (hs : s.fsm = .receiving) : s.Receiving := by
  have := h.sequenced
  simpa only [State.Sequenced, hs] using this

theorem State.Inv.replying {s : State} (h : s.Inv) (hs : s.fsm = .replying) : s.Replying := by
  have := h.sequenced
  simpa only [State.Sequenced, hs] using this

theorem State.Inv.idle {s : State} (h : s.Inv) (hs : s.fsm = .idle) : s.idx = 0 := by
  have := h.sequenced
  simpa only [State.Sequenced, hs] using this

theorem payload_free {s : State} (hd : Memory.defined s.txbuf s.txlen.toNat = true) (k : Nat) :
    payload { s with free := k } = payload s :=
  Memory.bytes_default hd _ _

/-- The invariant says nothing of the timer, the queue, the host, the schedule and the draw counter. -/
theorem State.Inv.environment {s : State} (h : s.Inv) (tm : Word) (q : List Byte) (ls : List HostLine)
    (rd : List Word) (ms : List Move) (k : Nat) :
    ({ s with tmr := tm, rxq := q, host := ls, hostRd := rd, sched := ms, free := k } : State).Inv := by
  obtain ⟨h1, ⟨b1, b2, b3, b4⟩, h3, ⟨r1, r2, r3, r4, r5, r6, r7, r8, r9, r10, r11, r12, r13⟩⟩ := h
  refine ⟨h1, ⟨b1, b2, b3, b4⟩, ?_, ⟨r1, r2, r3, r4, r5, r6, r7, r8, r9, r10, r11, r12, r13⟩⟩
  revert h3
  unfold State.Sequenced
  simp only
  cases s.fsm <;> simp only
  · exact id
  · rintro ⟨a1, a2, a3, a4, a5, a6, a7⟩
    exact ⟨a1, a2, a3, a4.trans (congrArg _ (payload_free a3 k).symm), a5, a6, a7⟩
  · rintro ⟨a1, a2, a3, a4, a5⟩
    exact ⟨a1, a2, a3, a4, a5⟩
  · rintro ⟨⟨a1, a2, a3, a4⟩, a5, a6, a7, a8, a9⟩
    exact ⟨⟨a1, a2, a3, a4⟩, a5, a6, a7, a8, a9⟩
  · rintro ⟨⟨a1, a2, a3, a4⟩, a5, a6, a7, a8, a9⟩
    refine ⟨⟨a1, a2, a3, a4⟩, a5, a6, a7, a8.trans (congrArg _ ?_), a9.trans ?_⟩
    · exact (Memory.bytes_default (Memory.defined_mono (by omega) a7) _ _)
    · have e1 := Memory.readD_default a7 (show frameLen s - 2 < frameLen s by omega)
        (undefinedByte s) (Config.freeByte k)
      have e2 := Memory.readD_default a7 (show frameLen s - 1 < frameLen s by omega)
        (undefinedByte s) (Config.freeByte k)
      exact congrArg₂ be16 e1 e2

/-! ## Runs of the machine -/

theorem run_succ_next {s t : State} (n : Nat) (h : step s = .next t) :
    Host.Core.run core (n + 1) s = Host.Core.run core n t := by
  have h' : core.step s = .next t := h
  simp only [Host.Core.run]
  rw [h']

/-- The rest of the frame in flight, accepted byte by byte with nothing between (R133). -/
theorem run_accepts (n : Nat) (ms : List Move) {s : State} (hf : s.fsm = .sending)
    (hl : s.txlen.toNat ≤ 251) (hi : s.idx.toNat + n = s.txlen.toNat + 3)
    (hs : s.sched = List.replicate (n + 1) .txAccept ++ ms) :
    Host.Core.run core (n + 1) s =
      .next { s with
        sched := ms
        wireTx := s.wireTx ++ (List.range' s.idx.toNat (n + 1)).map (txByte s)
        txcnt := s.txcnt + BitVec.ofNat 8 (n + 1)
        idx := 0, tmr := s.timeout, fsm := .awaitAck } := by
  induction n generalizing s with
  | zero =>
    rw [run_succ_next 0 (step_txAccept hs), offerAccepted_sending (by exact hf),
      sendAccepted_last (by exact hi)]
    rfl
  | succ n ih =>
    have hidx : (s.idx + 1).toNat = s.idx.toNat + 1 := by
      rw [BitVec.toNat_add]
      simp
      omega
    have e : s.txcnt + 1 + BitVec.ofNat 8 (n + 1) = s.txcnt + BitVec.ofNat 8 (n + 1 + 1) :=
      BitVec.eq_of_toNat_eq (by simp; omega)
    rw [run_succ_next (n + 1) (step_txAccept (ms := List.replicate (n + 1) .txAccept ++ ms) hs),
      offerAccepted_sending (by exact hf),
      sendAccepted_more (by show s.idx.toNat ≠ s.txlen.toNat + 3; omega)]
    refine Eq.trans (ih ?_ ?_ ?_ ?_) ?_
    · exact hf
    · exact hl
    · show (s.idx + 1).toNat + n = s.txlen.toNat + 3
      omega
    · rfl
    simp only [logTx, hidx, e, List.range'_succ (s := s.idx.toNat), List.map_cons, List.append_assoc,
      List.singleton_append]
    rfl

/-- A run of bytes the device sends, one a move with nothing between (R70). -/
theorem run_devs (f : List Byte) (ms : List Move) {s : State} (hs : s.sched = f.map .dev ++ ms) :
    Host.Core.run core f.length s = .next { s with sched := ms, rxq := s.rxq ++ f } := by
  induction f generalizing s with
  | nil =>
    obtain rfl : s.sched = ms := hs
    simp [Host.Core.run]
  | cons b f ih =>
    rw [List.length_cons, run_succ_next _ (step_dev (ms := f.map .dev ++ ms) hs), ih rfl]
    simp only [devSend, List.append_assoc, List.singleton_append]

/-- The writes of a run of bytes to `TXBUF`, one host line a move with nothing between (R63, R190). -/
theorem run_writes (ls : List HostLine) (ms : List Move) (t : List Byte) (i n : Nat) {s : State}
    (hf : s.fsm = .idle) (hc : s.cfg.maxPayload ≤ 251) (hl : i + t.length ≤ s.cfg.maxPayload) :
    Host.Core.run core (t.length + n)
        { s with
          sched := List.replicate (t.length + n) .host ++ ms
          host := (t.mapIdx fun j b => .wr (BitVec.ofNat 10 (0x100 + (i + j))) (b.setWidth 32)) ++ ls } =
      Host.Core.run core n
        { s with
          sched := List.replicate n .host ++ ms, host := ls
          txbuf := Memory.fill s.cfg.maxPayload s.txbuf i t } := by
  induction t generalizing i s with
  | nil => simp [Memory.fill]
  | cons b t ih =>
    simp only [List.length_cons] at hl ⊢
    rw [show t.length + 1 + n = (t.length + n) + 1 by omega]
    have ha : (BitVec.ofNat 10 (0x100 + i)).toNat = 0x100 + i := by
      simp
      omega
    have hr : regAt s.cfg (BitVec.ofNat 10 (0x100 + i)) = .txbuf i :=
      (regAt_txbuf_iff _ _ _).2 ⟨ha, by omega⟩
    have hw : ∀ u : State, u.cfg = s.cfg → u.fsm = .idle →
        regWrite (BitVec.ofNat 10 (0x100 + i)) (b.setWidth 32) u =
          { u with txbuf := Memory.write u.txbuf i b } := by
      intro u hu hi
      simp only [regWrite, hu, hr, writeReg, if_pos hi, lowByte_setWidth]
    have hst := step_host_wr
      (s := { s with
        sched := List.replicate (t.length + n + 1) .host ++ ms
        host :=
          ((b :: t).mapIdx fun j b => .wr (BitVec.ofNat 10 (0x100 + (i + j))) (b.setWidth 32)) ++ ls })
      (ms := List.replicate (t.length + n) .host ++ ms)
      (ls := (t.mapIdx fun j b => .wr (BitVec.ofNat 10 (0x100 + (i + 1 + j))) (b.setWidth 32)) ++ ls)
      (a := BitVec.ofNat 10 (0x100 + i)) (v := b.setWidth 32) rfl
      (by
        simp only [List.mapIdx_cons, List.cons_append, Nat.add_zero]
        simp only [Nat.add_assoc, Nat.add_comm 1])
      (by omega)
    rw [run_succ_next _ (hst.trans (congrArg Host.Outcome.next (hw _ rfl (by exact hf))))]
    have := ih (i + 1) (s := { s with txbuf := Memory.write s.txbuf i b }) hf hc
      (by show i + 1 + t.length ≤ s.cfg.maxPayload; omega)
    simp only [Memory.fill, if_pos (show i < s.cfg.maxPayload by omega)]
    exact this

/-! ## Verification and decoding -/

theorem split_last_two {f : List Byte} (h : 2 ≤ f.length) :
    f = f.take (f.length - 2) ++ [f.getD (f.length - 2) 0, f.getD (f.length - 1) 0] := by
  apply List.ext_getElem?
  intro i
  by_cases h1 : i < f.length - 2
  · rw [List.getElem?_append_left (by simp; omega), List.getElem?_take_of_lt h1]
  · rw [List.getElem?_append_right (by simp; omega)]
    simp only [List.length_take, List.getD_eq_getElem?_getD]
    rw [Nat.min_eq_left (by omega)]
    by_cases h2 : i < f.length
    · obtain h3 | h3 : i = f.length - 2 ∨ i = f.length - 1 := by omega
      · subst h3
        rw [Nat.sub_self]
        simp [show f.length - 2 < f.length by omega]
      · subst h3
        rw [show f.length - 1 - (f.length - 2) = 1 by omega]
        simp [show f.length - 1 < f.length by omega]
    · rw [List.getElem?_eq_none (by omega), List.getElem?_eq_none (by simp; omega)]

/-- The two checksums `verify` compares (R97). -/
theorem verify_parts {f : List Byte} (h : 2 ≤ f.length) :
    (verify f).2.1 = Config.csum16 (f.take (f.length - 2)) ∧
      (verify f).2.2 = f.getD (f.length - 2) 0 ++ f.getD (f.length - 1) 0 := by
  have hs := split_last_two h
  constructor
  · conv_lhs => rw [hs, verify_append]
  · conv_lhs => rw [hs, verify_append]
    rfl

theorem decodeReport_frame {s : State} (h : s.opr = 0x02) : decodeReport s = s := by
  unfold decodeReport
  rw [h]
  rfl

theorem decodeReport_status {s : State} (h : s.opr = 0x03) {b : Byte}
    (hb : Memory.read s.rxbuf 3 = some b) :
    decodeReport s =
      { s with devstat := { code := decodeStatus s.cfg b, valid := true, raw := b } } := by
  have hr : rxByte s 3 = b := Memory.readD_of_read hb _
  have ho : s.opr.toNat = 0x03 := by rw [h]; rfl
  unfold decodeReport
  simp only [ho, hr]

theorem decodeReport_version {s : State} (h : s.opr = 0x04) {m f w : Byte}
    (hm : Memory.read s.rxbuf s.cfg.verOffModel = some m)
    (hf : Memory.read s.rxbuf s.cfg.verOffFw = some f)
    (hw : Memory.read s.rxbuf s.cfg.verOffHw = some w) :
    decodeReport s = { s with version := decodeVersion s.cfg m f w } := by
  have h1 : rxByte s s.cfg.verOffModel = m := Memory.readD_of_read hm _
  have h2 : rxByte s s.cfg.verOffFw = f := Memory.readD_of_read hf _
  have h3 : rxByte s s.cfg.verOffHw = w := Memory.readD_of_read hw _
  have ho : s.opr.toNat = 0x04 := by rw [h]; rfl
  unfold decodeReport
  simp only [ho, h1, h2, h3]

theorem replyAccepted_match {s : State} (h : s.csumCalc = s.csumWire) :
    replyAccepted s = finish .rxOk (decodeReport (logTx 0x06 s)) := by
  have hm : matched s = true := by simp [matched, h]
  simp only [replyAccepted, hm, if_true, reply]

theorem replyAccepted_mismatch {s : State} (h : s.csumCalc ≠ s.csumWire) :
    replyAccepted s = finishRx .checksumMismatch (logTx 0x15 s) := by
  have hm : matched s = false := by simp [matched, h]
  simp only [replyAccepted, hm, Bool.false_eq_true, if_false, reply]

end Sys2Proof.Machine
end

