-- ==== Sys2Proof/Laws/Inversion.lean ====
section
/-! SUPPORT. The inversion lemmas of a launch and of a step: whatever a step does is one of the cases
listed here, and no later proof unfolds `step`. -/

namespace Sys2Proof.Machine

/-- What a write to `CMD` does when it does not stop. -/
inductive Launch (u : State) : State → Prop
  /-- `NOP` (R181), or any operation while one is in flight (R64). -/
  | ignored : Launch u u
  /-- A launch that ends at once and takes no byte (R131, R151, R172, R183). -/
  | ends (op : Byte) (code : ResultCode) (idle : u.fsm = .idle)
      (code_is : code = .encodingError ∨ code = .notImplemented ∨ code = .illegalOp)
      (op_ne : u.cfg.Legal → op ≠ 0x03 ∧ op ≠ 0x04) : Launch u (finish code (beginOp op u))
  /-- `FLUSH` (R182). -/
  | flushes (idle : u.fsm = .idle) : Launch u (finish .flushed (rxFlush (beginOp 0x06 u)))
  /-- `EXEC` over a legal, written payload (R131). -/
  | sends (idle : u.fsm = .idle) (length : u.txlen.toNat ≤ u.cfg.maxPayload)
      (written : Memory.defined u.txbuf u.txlen.toNat = true) :
      Launch u
        { beginOp 0x01 u with
          csumTx := Config.csum16 (payload u)
          rxq := if u.cfg.flushOnExec then [] else u.rxq
          idx := 0, fsm := .sending }
  /-- A receive operation of a legal frame length (R151). -/
  | receives (op : Byte) (idle : u.fsm = .idle) (op_is : op = 0x02 ∨ op = 0x03 ∨ op = 0x04)
      (len_ge : 2 ≤ frameLen { u with opr := op })
      (len_le : frameLen { u with opr := op } ≤ u.cfg.rxBufSize) :
      Launch u { beginOp op u with idx := 0, tmr := u.timeout, fsm := .receiving }

/-- While an operation is in flight a launch does nothing (R64). -/
theorem Launch.busy {u t : State} (h : Launch u t) (hb : u.fsm ≠ .idle) : t = u := by
  cases h with
  | ignored => rfl
  | ends op code hi => exact absurd hi hb
  | flushes hi => exact absurd hi hb
  | sends hi => exact absurd hi hb
  | receives op hi => exact absurd hi hb

/-- What a launch never touches. -/
theorem Launch.frame {u t : State} (h : Launch u t) :
    t.cfg = u.cfg ∧ t.txlen = u.txlen ∧ t.rxlen = u.rxlen ∧ t.timeout = u.timeout ∧
      t.txbuf = u.txbuf ∧ t.rxbuf = u.rxbuf ∧ t.wireTx = u.wireTx ∧ t.host = u.host ∧
      t.hostRd = u.hostRd ∧ t.sched = u.sched ∧ t.free = u.free := by
  cases h <;> exact ⟨rfl, rfl, rfl, rfl, rfl, rfl, rfl, rfl, rfl, rfl, rfl⟩

theorem launch_exec {u t : State} (h : exec .exec u = .next t) : Launch u t := by
  by_cases hi : u.fsm = .idle
  · rw [exec, execExec, whenIdle_idle hi] at h
    by_cases hl : u.cfg.maxPayload < u.txlen.toNat
    · rw [launchExec_tooLong (by exact hl)] at h
      injection h with h
      exact h ▸ .ends _ _ hi (.inl rfl) fun _ => by decide
    · by_cases hd : Memory.defined u.txbuf u.txlen.toNat = true
      · rw [launchExec_ready (by exact Nat.not_lt.1 hl) (by exact hd)] at h
        injection h with h
        exact h ▸ .sends hi (Nat.not_lt.1 hl) hd
      · rw [launchExec_unwritten (by exact Nat.not_lt.1 hl) (by exact hd)] at h
        cases h
  · rw [exec, execExec, whenIdle_busy hi] at h
    injection h with h
    exact h ▸ .ignored

theorem launch_rx {u t : State} {len : Nat} {op : Byte} (hop : op = 0x02 ∨ op = 0x03 ∨ op = 0x04)
    (hlen : frameLen { u with opr := op } = len)
    (hshort : u.cfg.Legal → op ≠ 0x02 → 2 ≤ len ∧ len ≤ u.cfg.rxBufSize)
    (h : whenIdle u (.next (launchRx len (beginOp op u))) = .next t) : Launch u t := by
  by_cases hi : u.fsm = .idle
  · rw [whenIdle_idle hi] at h
    injection h with h
    by_cases hl : 2 ≤ len ∧ len ≤ u.cfg.rxBufSize
    · rw [launchRx_legal hl.1 (by exact hl.2)] at h
      exact h ▸ .receives op hi hop (hlen ▸ hl.1) (hlen ▸ hl.2)
    · rw [launchRx_illegal (by show len < 2 ∨ u.cfg.rxBufSize < len; omega)] at h
      refine h ▸ .ends op _ hi (.inl rfl) fun hc => ?_
      have h2 : op = 0x02 := by
        by_contra hne
        exact hl (hshort hc hne)
      exact h2 ▸ by decide
  · rw [whenIdle_busy hi] at h
    injection h with h
    exact h ▸ .ignored

/-- The inversion of a launch. -/
theorem launch_cases {u t : State} {w : Word}
    (h : exec (decodeCmd w) u = .next t) : Launch u t := by
  have ends : ∀ (op : Byte) (code : ResultCode),
      (code = .encodingError ∨ code = .notImplemented ∨ code = .illegalOp) →
      (op ≠ 0x03 ∧ op ≠ 0x04) → whenIdle u (.next (finish code (beginOp op u))) = .next t →
      Launch u t := fun op code hcode hop h => by
    by_cases hi : u.fsm = .idle
    · rw [whenIdle_idle hi] at h
      injection h with h
      exact h ▸ .ends _ _ hi hcode fun _ => hop
    · rw [whenIdle_busy hi] at h
      injection h with h
      exact h ▸ .ignored
  unfold decodeCmd at h
  split at h
  · injection h with h
    exact h ▸ .ignored
  · exact launch_exec h
  · exact launch_rx (len := u.rxlen.toNat) (.inl rfl) rfl (fun _ hc => absurd rfl hc) h
  · refine launch_rx (len := u.cfg.statusFrameLen) (.inr (.inl rfl)) rfl (fun hc _ => ?_) h
    have := hc.statusFrameLen_ge
    exact ⟨by omega, hc.statusFrameLen_le⟩
  · refine launch_rx (len := u.cfg.versionFrameLen) (.inr (.inr rfl)) rfl (fun hc _ => ?_) h
    have := hc.verOffHw_le
    exact ⟨by omega, hc.versionFrameLen_le⟩
  · exact ends _ _ (.inr (.inl rfl)) (by decide) h
  · by_cases hi : u.fsm = .idle
    · rw [exec, execFlush, whenIdle_idle hi] at h
      injection h with h
      exact h ▸ .flushes hi
    · rw [exec, execFlush, whenIdle_busy hi] at h
      injection h with h
      exact h ▸ .ignored
  · rename_i h0 h1 h2 h3 h4 h5 h6
    refine ends _ _ (.inr (.inr rfl)) ⟨?_, ?_⟩ h
    · rintro hb
      exact h3 (by rw [hb]; rfl)
    · rintro hb
      exact h4 (by rw [hb]; rfl)

/-- What an engine step does (R133 to R138, R153 to R158), by the move that brings it about. -/
inductive EngineStep (m : Move) (u : State) : State → Prop
  /-- Nothing is offered, nothing is polled, or the line is quiet and time is left (R208). -/
  | none (move : m = .txAccept ∨ m = .txFrame ∨ m = .txFail ∨ m = .rxPoll ∨ m = .rxErr) :
      EngineStep m u u
  /-- *send-accepted*, the last byte (R133). -/
  | sentLast (move : m = .txAccept ∨ m = .txFrame) (fsm : u.fsm = .sending)
      (last : u.idx.toNat = u.txlen.toNat + 3) :
      EngineStep m u
        { u with
          wireTx := u.wireTx ++ [txByte u u.idx.toNat], txcnt := u.txcnt + 1
          idx := 0, tmr := u.timeout, fsm := .awaitAck }
  /-- *send-accepted*, an earlier byte (R133). -/
  | sentMore (move : m = .txAccept ∨ m = .txFrame) (fsm : u.fsm = .sending)
      (more : u.idx.toNat ≠ u.txlen.toNat + 3) :
      EngineStep m u
        { u with
          wireTx := u.wireTx ++ [txByte u u.idx.toNat], txcnt := u.txcnt + 1, idx := u.idx + 1 }
  /-- *send-failed*, *ack-error*, *ack-timeout* (R134, R137, R138). -/
  | exchangeEnds (code : ResultCode)
      (from_ : (u.fsm = .sending ∧ m = .txFail) ∨ (u.fsm = .awaitAck ∧ (m = .rxPoll ∨ m = .rxErr)))
      (code_is : code = .transportFailed ∨ code = .timedOut) :
      EngineStep m u { u with result := code, done := true, idx := 0, fsm := .idle }
  /-- *ack-byte* (R136). -/
  | ackByte (b : Byte) (rest : List Byte) (move : m = .rxPoll) (fsm : u.fsm = .awaitAck)
      (oldest : u.rxq = b :: rest) :
      EngineStep m u
        { u with
          rxq := rest, rxcnt := u.rxcnt + 1, ackbyte := b, ackvalid := true
          result := classify b, done := true, idx := 0, fsm := .idle }
  /-- *recv-byte*, a byte before the last (R153). -/
  | recvMore (b : Byte) (rest : List Byte) (move : m = .rxPoll) (fsm : u.fsm = .receiving)
      (oldest : u.rxq = b :: rest) (more : u.idx.toNat + 1 ≠ frameLen u) :
      EngineStep m u
        { u with
          rxq := rest, rxcnt := u.rxcnt + 1
          rxbuf := Memory.write u.rxbuf u.idx.toNat b, idx := u.idx + 1 }
  /-- *recv-byte*, the last byte (R153, R155). -/
  | recvLast (b : Byte) (rest f : List Byte) (move : m = .rxPoll) (fsm : u.fsm = .receiving)
      (oldest : u.rxq = b :: rest) (last : u.idx.toNat + 1 = frameLen u)
      (frame : f = Memory.bytes (Memory.write u.rxbuf u.idx.toNat b) (undefinedByte u) (frameLen u)) :
      EngineStep m u
        { u with
          rxq := rest, rxcnt := u.rxcnt + 1
          rxbuf := Memory.write u.rxbuf u.idx.toNat b
          csumCalc := (verify f).2.1, csumWire := (verify f).2.2
          idx := 0, fsm := .replying }
  /-- *recv-error*, *recv-timeout*, *reply-failed* (R154, R158). -/
  | receptionEnds (code : ResultCode)
      (from_ : (u.fsm = .replying ∧ m = .txFail) ∨ (u.fsm = .receiving ∧ (m = .rxPoll ∨ m = .rxErr)))
      (code_is : code = .transportFailed ∨ code = .timedOut) :
      EngineStep m u
        { u with
          devstat := if u.opr = 0x03 then ⟨.error, true, 0⟩ else u.devstat
          result := code, done := true, idx := 0, fsm := .idle }
  /-- *reply-accepted*, the checksums equal (R157). -/
  | replied (move : m = .txAccept) (fsm : u.fsm = .replying) (sums : u.csumCalc = u.csumWire) :
      EngineStep m u
        { u with
          wireTx := u.wireTx ++ [0x06], txcnt := u.txcnt + 1
          devstat :=
            if u.opr = 0x03 then ⟨decodeStatus u.cfg (rxByte u 3), true, rxByte u 3⟩ else u.devstat
          version :=
            if u.opr = 0x04 then
              decodeVersion u.cfg (rxByte u u.cfg.verOffModel) (rxByte u u.cfg.verOffFw)
                (rxByte u u.cfg.verOffHw)
            else u.version
          result := .rxOk, done := true, idx := 0, fsm := .idle }
  /-- *reply-accepted*, the checksums different (R157). -/
  | rejected (move : m = .txAccept) (fsm : u.fsm = .replying) (sums : u.csumCalc ≠ u.csumWire) :
      EngineStep m u
        { u with
          wireTx := u.wireTx ++ [0x15], txcnt := u.txcnt + 1
          devstat := if u.opr = 0x03 then ⟨.error, true, 0⟩ else u.devstat
          result := .checksumMismatch, done := true, idx := 0, fsm := .idle }

theorem decodeReport_eq (s : State) :
    decodeReport s =
      { s with
        devstat :=
          if s.opr = 0x03 then ⟨decodeStatus s.cfg (rxByte s 3), true, rxByte s 3⟩ else s.devstat
        version :=
          if s.opr = 0x04 then
            decodeVersion s.cfg (rxByte s s.cfg.verOffModel) (rxByte s s.cfg.verOffFw)
              (rxByte s s.cfg.verOffHw)
          else s.version } := by
  unfold decodeReport
  split
  · rename_i h
    have h3 : s.opr = 0x03 := BitVec.eq_of_toNat_eq h
    rw [if_pos h3, if_neg (by rw [h3]; decide)]
  · rename_i h
    have h4 : s.opr = 0x04 := BitVec.eq_of_toNat_eq h
    rw [if_neg (by rw [h4]; decide), if_pos h4]
  · rename_i h3 h4
    rw [if_neg (by rintro h; exact h3 (by rw [h]; rfl)), if_neg (by rintro h; exact h4 (by rw [h]; rfl))]

theorem sendAccepted_step {m : Move} (hm : m = .txAccept ∨ m = .txFrame) {u : State}
    (hs : u.fsm = .sending) : EngineStep m u (sendAccepted u) := by
  by_cases hl : u.idx.toNat = u.txlen.toNat + 3
  · exact sendAccepted_last hl ▸ .sentLast hm hs hl
  · exact sendAccepted_more hl ▸ .sentMore hm hs hl

theorem offerAccepted_step (u : State) : EngineStep .txAccept u (offerAccepted u) := by
  by_cases hs : u.fsm = .sending
  · rw [offerAccepted_sending hs]
    exact sendAccepted_step (.inl rfl) hs
  · by_cases hr : u.fsm = .replying
    · rw [offerAccepted_replying hr]
      by_cases hc : u.csumCalc = u.csumWire
      · rw [replyAccepted_match hc, decodeReport_eq]
        exact .replied rfl hr hc
      · rw [replyAccepted_mismatch hc, finishRx_eq]
        exact .rejected rfl hr hc
    · rw [(offer_off ⟨hs, hr⟩).1]
      exact .none (.inl rfl)

theorem offerFailed_step (u : State) : EngineStep .txFail u (offerFailed u) := by
  by_cases hs : u.fsm = .sending
  · rw [offerFailed_sending hs]
    exact .exchangeEnds _ (.inl ⟨hs, rfl⟩) (.inl rfl)
  · by_cases hr : u.fsm = .replying
    · rw [offerFailed_replying hr, replyFailed, finishRx_eq]
      exact .receptionEnds _ (.inl ⟨hr, rfl⟩) (.inl rfl)
    · rw [(offer_off ⟨hs, hr⟩).2]
      exact .none (.inr (.inr (.inl rfl)))

theorem poll_step (err : Bool) (u : State) :
    EngineStep (if err then Move.rxErr else Move.rxPoll) u (poll err u) := by
  by_cases hp : polling u = true
  · rcases (polling_iff u).1 hp with ha | hr
    · cases err with
      | true =>
        rw [poll_awaitAck_err ha]
        exact .exchangeEnds _ (.inr ⟨ha, .inr rfl⟩) (.inl rfl)
      | false =>
        cases hq : u.rxq with
        | nil =>
          show EngineStep .rxPoll u _
          rw [poll_awaitAck_none ha hq]
          split
          · exact .exchangeEnds _ (.inr ⟨ha, .inl rfl⟩) (.inr rfl)
          · exact .none (.inr (.inr (.inr (.inl rfl))))
        | cons b rest =>
          rw [poll_awaitAck_byte ha hq]
          exact .ackByte b rest rfl ha hq
    · cases err with
      | true =>
        rw [poll_receiving_err hr, recvError, finishRx_eq]
        exact .receptionEnds _ (.inr ⟨hr, .inr rfl⟩) (.inl rfl)
      | false =>
        cases hq : u.rxq with
        | nil =>
          show EngineStep .rxPoll u _
          rw [poll_receiving_none hr hq]
          split
          · rw [recvTimeout, finishRx_eq]
            exact .receptionEnds _ (.inr ⟨hr, .inl rfl⟩) (.inr rfl)
          · exact .none (.inr (.inr (.inr (.inl rfl))))
        | cons b rest =>
          rw [poll_receiving_byte hr hq]
          by_cases hl : u.idx.toNat + 1 = frameLen u
          · rw [recvByte_last hl]
            exact .recvLast b rest _ rfl hr hq hl rfl
          · rw [recvByte_more hl]
            exact .recvMore b rest rfl hr hq hl
  · rw [poll_off (by simpa using hp)]
    cases err
    · exact .none (.inr (.inr (.inr (.inl rfl))))
    · exact .none (.inr (.inr (.inr (.inr rfl))))

/-- What a tick does (R41). -/
theorem tick_eq (s : State) :
    tick s =
      { s with
        tmr := if (s.fsm = .awaitAck ∨ s.fsm = .receiving) ∧ 0 < s.tmr.toNat then s.tmr - 1 else s.tmr } := by
  have hz : 0 < s.tmr.toNat ↔ s.tmr ≠ 0 := by
    rw [Nat.pos_iff_ne_zero, ne_eq, ne_eq, ← BitVec.toNat_inj]
    rfl
  unfold tick
  split
  · rename_i hf
    by_cases h0 : s.tmr = 0
    · rw [if_pos h0, if_neg fun h => hz.1 h.2 h0]
    · rw [if_neg h0, if_pos ⟨.inl hf, hz.2 h0⟩]
  · rename_i hf
    by_cases h0 : s.tmr = 0
    · rw [if_pos h0, if_neg fun h => hz.1 h.2 h0]
    · rw [if_neg h0, if_pos ⟨.inr hf, hz.2 h0⟩]
  all_goals
    rename_i hf
    rw [if_neg fun h => h.1.elim (fun h => by rw [hf] at h; cases h) fun h => by rw [hf] at h; cases h]

/-- What a step does, by the move it takes. -/
inductive StepCase (s : State) : State → Prop
  /-- No move is left. -/
  | stutter (h : s.sched = []) : StepCase s s
  /-- The device puts a byte on the line, by itself or as the first of a run (R70, R76). -/
  | device (b : Byte) (ms : List Move)
      (h : s.sched = .dev b :: ms ∨
        ∃ bs ms', s.sched = .devFrame (b :: bs) :: ms' ∧ ms = bs.map .dev ++ ms') :
      StepCase s (devSend b { s with sched := ms })
  /-- A run of no bytes is spent. -/
  | spent (ms : List Move) (h : s.sched = .devFrame [] :: ms) : StepCase s { s with sched := ms }
  /-- A tick (R41). -/
  | tick (ms : List Move) (h : s.sched = .tick :: ms) :
      StepCase s
        { s with
          sched := ms
          tmr := if (s.fsm = .awaitAck ∨ s.fsm = .receiving) ∧ 0 < s.tmr.toNat then s.tmr - 1 else s.tmr }
  /-- The engine, by an answer of the transport or a poll; the first byte of a frame accepted whole leaves the
  others as the moves to come. -/
  | engine (m : Move) (ms ms' : List Move) (t : State) (h : s.sched = m :: ms)
      (rest : ms' = ms ∨
        m = .txFrame ∧ ms' = List.replicate (remaining s - 1) .txAccept ++ ms)
      (does : EngineStep m { s with sched := ms' } t) : StepCase s t
  /-- The reset input (R230). -/
  | reset (ms : List Move) (h : s.sched = .reset :: ms) :
      StepCase s (resetPin { s with sched := ms })
  /-- The host writes `CMD` (R110); its program goes on with `ls`. -/
  | command (ms : List Move) (ls : List HostLine) (a : BitVec 10) (v : Word) (t : State)
      (h : s.sched = .host :: ms) (line : s.host = .wr a v :: ls) (cmd : a.toNat = 0)
      (launch : exec (decodeCmd v) { s with sched := ms, host := ls } = .next t) : StepCase s t
  /-- The host writes another index (R63), by a line of its program or by the first line of a device command
  (R190). -/
  | write (ms : List Move) (ls : List HostLine) (a : BitVec 10) (v : Word)
      (h : s.sched = .host :: ms) :
      StepCase s (regWrite a v { s with sched := ms, host := ls })
  /-- The host reads, waits, or has nothing left to do (R62, R113): its own record and the draw counter
  change. -/
  | reads (ms : List Move) (ls : List HostLine) (vs : List Word) (k : Nat)
      (h : s.sched = .host :: ms) :
      StepCase s { s with sched := ms, host := ls, hostRd := vs, free := k }

/-- What a write to an index other than that of `CMD` can change (R63 to R65). -/
theorem regWrite_shape (a : BitVec 10) (v : Word) (s : State) :
    ∃ l r tm m,
      regWrite a v s = { s with txlen := l, rxlen := r, timeout := tm, txbuf := m } ∧
      (s.fsm ≠ .idle → regWrite a v s = s) ∧
      (m = s.txbuf ∨ ∃ i, i < s.cfg.maxPayload ∧ m = Memory.write s.txbuf i (lowByte v)) := by
  unfold regWrite writeReg
  split
  · rename_i hi
    split
    · exact ⟨_, _, _, _, rfl, fun h => absurd hi h, .inl rfl⟩
    · exact ⟨_, _, _, _, rfl, fun h => absurd hi h, .inl rfl⟩
    · exact ⟨_, _, _, _, rfl, fun h => absurd hi h, .inl rfl⟩
    · rename_i i hr
      exact ⟨_, _, _, _, rfl, fun h => absurd hi h, .inr ⟨i, ((regAt_txbuf_iff _ _ _).1 hr).2, rfl⟩⟩
    all_goals exact ⟨_, _, _, _, rfl, fun h => absurd hi h, .inl rfl⟩
  · exact ⟨_, _, _, _, rfl, fun _ => rfl, .inl rfl⟩

/-- What a device command submits (R190). -/
theorem exec_decodePseudo (l : PseudoLine) (s : State) :
    ∃ p, Catalogued l p ∧ exec (decodePseudo l) s = submit p s := by
  cases l with
  | flowControl m =>
    refine ⟨_, ?_, rfl⟩
    by_cases h : m = 0
    · exact .inl ⟨h, by simp [flowTemplate, h]⟩
    · exact .inr ⟨h, by simp [flowTemplate, h]⟩
  | _ => exact ⟨_, rfl, rfl⟩

/-- A line of the catalogue has one sequence of opcode bytes. -/
theorem catalogued_unique {l : PseudoLine} {p q : List Byte} (h : Catalogued l p)
    (h' : Catalogued l q) : p = q := by
  cases l with
  | flowControl m =>
    rcases h with ⟨h, rfl⟩ | ⟨h, rfl⟩ <;> rcases h' with ⟨h', rfl⟩ | ⟨h', rfl⟩ <;>
      first | rfl | exact absurd h h' | exact absurd h' h
  | _ => exact Eq.trans h (Eq.symm h')

theorem exec_pseudo {l : PseudoLine} {p : List Byte} (h : Catalogued l p) (s : State) :
    exec (decodePseudo l) s = submit p s := by
  obtain ⟨q, hq, e⟩ := exec_decodePseudo l s
  rw [e, catalogued_unique hq h]

/-- The inversion of a step. -/
theorem step_cases {s t : State} (h : step s = .next t) : StepCase s t := by
  cases hs : s.sched with
  | nil =>
    rw [step_idle hs] at h
    injection h with h
    exact h ▸ .stutter hs
  | cons m ms =>
    cases m with
    | host =>
      cases hh : s.host with
      | nil =>
        rw [step_host_none hs hh] at h
        injection h with h
        exact h ▸ .reads ms s.host s.hostRd s.free hs
      | cons l ls =>
        cases l with
        | wr a v =>
          by_cases ha : a.toNat = 0
          · rw [step_host_cmd hs hh ha] at h
            exact .command ms ls a v t hs hh ha h
          · rw [step_host_wr hs hh ha] at h
            injection h with h
            exact h ▸ .write ms ls a v hs
        | rd a =>
          rw [step_host_rd hs hh] at h
          injection h with h
          exact h ▸ .reads ms ls _ _ hs
        | wait =>
          rw [step_host_wait hs hh] at h
          injection h with h
          subst h
          split
          · exact .reads ms ls _ _ hs
          · exact .reads ms s.host _ _ hs
        | pseudo l =>
          rw [step_host_pseudo hs hh] at h
          obtain ⟨p, -, hp⟩ := exec_decodePseudo l { s with sched := ms, host := ls }
          obtain ⟨a, v, rest, -, hl⟩ := commandLines_cons s.cfg p
          rw [hp, submit_eq (by exact hl)] at h
          injection h with h
          exact h ▸ .write ms (rest ++ ls) a v hs
    | dev b =>
      rw [step_dev hs] at h
      injection h with h
      exact h ▸ .device b ms (.inl hs)
    | devFrame f =>
      rw [step_devFrame hs] at h
      injection h with h
      subst h
      cases f with
      | nil => exact .spent ms hs
      | cons b bs => exact .device b _ (.inr ⟨bs, ms, hs, rfl⟩)
    | tick =>
      rw [step_tick hs] at h
      injection h with h
      rw [tick_eq] at h
      exact h ▸ .tick ms hs
    | txAccept =>
      rw [step_txAccept hs] at h
      injection h with h
      exact .engine _ ms ms t hs (.inl rfl) (h ▸ offerAccepted_step _)
    | txFrame =>
      rw [step_txFrame hs] at h
      injection h with h
      subst h
      by_cases hf : s.fsm = .sending
      · rw [acceptFrame_sending (by exact hf)]
        exact .engine _ ms _ _ hs (.inr ⟨rfl, rfl⟩) (sendAccepted_step (.inr rfl) hf)
      · rw [acceptFrame_off (by exact hf)]
        exact .engine _ ms ms _ hs (.inl rfl) (.none (.inr (.inl rfl)))
    | txFail =>
      rw [step_txFail hs] at h
      injection h with h
      exact .engine _ ms ms t hs (.inl rfl) (h ▸ offerFailed_step _)
    | rxPoll =>
      rw [step_rxPoll hs] at h
      injection h with h
      exact .engine _ ms ms t hs (.inl rfl) (h ▸ poll_step false _)
    | rxErr =>
      rw [step_rxErr hs] at h
      injection h with h
      exact .engine _ ms ms t hs (.inl rfl) (h ▸ poll_step true _)
    | reset =>
      rw [step_reset hs] at h
      injection h with h
      exact h ▸ .reset ms hs

end Sys2Proof.Machine
end

