-- ==== Sys2Proof/Laws/PerInstr.lean ====
section
/-! SUPPORT. The family `TableWord`: the encoding of every well-formed instruction lies in the row the opcode
table gives it. -/

namespace Sys2Proof.Laws.TableWord

/-- A row of the opcode table, by its format column. -/
inductive Row
  /-- Format `CMD`: match and mask. -/
  | cmd (bits mask : Word)
  /-- Format `CMD`, a range of codes under a mask (`RESERVED`). -/
  | cmdRange (lo hi : Nat) (mask : Word)
  /-- Format `WIRE_BYTE`: match and mask. -/
  | wireByte (bits mask : Byte)
  /-- Format `PAYLOAD_BYTE0`: match and mask. -/
  | payloadByte0 (bits mask : Byte)
  /-- Format `WIRE_FRAME`, host to device: a payload of at most `MAX_PAYLOAD` bytes, its delimiters, its
  checksum. -/
  | commandFrame
  /-- Format `WIRE_FRAME`, device to host: at most `RX_BUF_SIZE` bytes that end in their checksum. -/
  | reportFrame
  /-- Format `PSEUDO`: a line of the host's program. -/
  | pseudo

/-- The row of each instruction, the numbers copied from the table. -/
def rowOf : Instr → Row
  | .nop => .cmd 0x00000000 0x000000FF
  | .exec => .cmd 0x00000001 0x000000FF
  | .rxFrame => .cmd 0x00000002 0x000000FF
  | .rxStatus => .cmd 0x00000003 0x000000FF
  | .rxVersion => .cmd 0x00000004 0x000000FF
  | .rxCard => .cmd 0x00000005 0x000000FF
  | .flush => .cmd 0x00000006 0x000000FF
  | .reserved _ => .cmdRange 0x07 0xFF 0x000000FF
  | .stx _ => .wireByte 0x02 0xFF
  | .etx _ => .wireByte 0x03 0xFF
  | .ack _ => .wireByte 0x06 0xFF
  | .nack _ => .wireByte 0x15 0xFF
  | .classShort => .payloadByte0 0x06 0xFF
  | .classParam => .payloadByte0 0x07 0xFF
  | .commandFrame _ => .commandFrame
  | .reportFrame _ => .reportFrame
  | .cmdReset => .pseudo
  | .cmdStartRead => .pseudo
  | .cmdBeep => .pseudo
  | .cmdBufferSelect _ => .pseudo
  | .cmdFlowControl _ => .pseudo
  | .cmdVerification _ => .pseudo
  | .cmdReadCount _ => .pseudo
  | .cmdClockCount _ _ => .pseudo
  | .cmdDisplayText _ => .pseudo
  | .cmdVersionQuery => .pseudo

/-- The row admits the encoding. -/
def Row.admits (c : Config) : Row → Encoded → Prop
  | .cmd v m, .cmd w => w &&& m = v
  | .cmdRange lo hi m, .cmd w => lo ≤ (w &&& m).toNat ∧ (w &&& m).toNat ≤ hi
  | .wireByte v m, .wireByte _ b => b &&& m = v
  | .payloadByte0 v m, .payloadByte0 b => b &&& m = v
  | .commandFrame, .txFrame f =>
    ∃ p, p.length ≤ c.maxPayload ∧
      f = [0x02] ++ p ++ [0x03] ++ [hi8 (Config.csum16 p), lo8 (Config.csum16 p)]
  | .reportFrame, .rxFrame f =>
    ∃ r, 2 ≤ f.length ∧ f.length ≤ c.rxBufSize ∧
      f = r ++ [hi8 (Config.csum16 r), lo8 (Config.csum16 r)]
  | .pseudo, .pseudo _ => True
  | _, _ => False

/-- The encoding of the instruction, where it is well formed, lies in its row. -/
def Statement (i : Instr) : Prop :=
  ∀ c : Config, i.wellFormed c = true → (rowOf i).admits c (encode i)

theorem nop : Statement .nop := fun _ _ => rfl
theorem exec : Statement .exec := fun _ _ => rfl
theorem rxFrame : Statement .rxFrame := fun _ _ => rfl
theorem rxStatus : Statement .rxStatus := fun _ _ => rfl
theorem rxVersion : Statement .rxVersion := fun _ _ => rfl
theorem rxCard : Statement .rxCard := fun _ _ => rfl
theorem flush : Statement .flush := fun _ _ => rfl

theorem reserved (op : Byte) : Statement (.reserved op) := by
  intro c h
  have hlt := op.isLt
  have hop : 7 ≤ op.toNat := by simpa [Instr.wellFormed] using h
  have hmask : (op.setWidth 32 &&& 0x000000FF : Word).toNat = op.toNat := by
    rw [BitVec.toNat_and, BitVec.toNat_setWidth, Nat.mod_eq_of_lt (by omega)]
    exact (Nat.and_two_pow_sub_one_eq_mod op.toNat 8).trans (Nat.mod_eq_of_lt hlt)
  show 7 ≤ _ ∧ _ ≤ 255
  rw [hmask]
  omega

theorem stx (x : Crossing) : Statement (.stx x) := fun _ _ => rfl
theorem etx (x : Crossing) : Statement (.etx x) := fun _ _ => rfl
theorem ack (x : Crossing) : Statement (.ack x) := fun _ _ => rfl
theorem nack (x : Crossing) : Statement (.nack x) := fun _ _ => rfl
theorem classShort : Statement .classShort := fun _ _ => rfl
theorem classParam : Statement .classParam := fun _ _ => rfl

theorem commandFrame (p : List Byte) : Statement (.commandFrame p) := by
  intro c h
  exact ⟨p, by simpa [Instr.wellFormed] using h, rfl⟩

theorem reportFrame (body : List Byte) : Statement (.reportFrame body) := by
  intro c h
  refine ⟨body, ?_, ?_, rfl⟩
  · simp
  · simpa [Instr.wellFormed] using h

theorem cmdReset : Statement .cmdReset := fun _ _ => trivial
theorem cmdStartRead : Statement .cmdStartRead := fun _ _ => trivial
theorem cmdBeep : Statement .cmdBeep := fun _ _ => trivial
theorem cmdBufferSelect (mode : Nat) : Statement (.cmdBufferSelect mode) := fun _ _ => trivial
theorem cmdFlowControl (mode : Nat) : Statement (.cmdFlowControl mode) := fun _ _ => trivial
theorem cmdVerification (mode : Nat) : Statement (.cmdVerification mode) := fun _ _ => trivial
theorem cmdReadCount (mode : Nat) : Statement (.cmdReadCount mode) := fun _ _ => trivial

theorem cmdClockCount (first : Byte) (more : List Byte) : Statement (.cmdClockCount first more) :=
  fun _ _ => trivial

theorem cmdDisplayText (text : List Byte) : Statement (.cmdDisplayText text) := fun _ _ => trivial
theorem cmdVersionQuery : Statement .cmdVersionQuery := fun _ _ => trivial

end Sys2Proof.Laws.TableWord
end

