-- ==== Sys2Proof/Tests/Slice0.lean ====
section
/-! SUPPORT. Tests: the smoke test of `WellFormed`, words written out from the spec's encodings, one step of
each instruction with the numbers of `95_test_vectors.md`, and a witness for the hypotheses of every
statement. -/

namespace Sys2Proof.Tests

open Sys2Proof.Machine

/-! ## Small states -/

/-- Reset, with nothing pending. -/
def blank : State := State.powerOn Config.standard []

/-- The next host line. -/
def State.line (l : HostLine) (s : State) : State := { s with sched := [.host], host := [l] }

/-- The next move. -/
def State.move (m : Move) (s : State) : State := { s with sched := [m] }

/-- The bytes `p` from address `a` on. -/
def cells (a : Nat) (p : List Byte) : Memory := p.mapIdx fun i b => (a + i, b)

/-- `TXBUF[0 .. n-1] = p`, `TXLEN = n`. -/
def loaded (p : List Byte) : State :=
  { blank with txbuf := cells 0 p, txlen := BitVec.ofNat 8 p.length }

/-- V-E0 after its launch: `EXEC` over `06 30` is offering its frame. -/
def sending : State :=
  { loaded [0x06, 0x30] with opr := 0x01, csumTx := Config.csum16 [0x06, 0x30], fsm := .sending }

/-- V-E0 before any byte has come: all six offers accepted. -/
def awaiting : State :=
  { sending with
    wireTx := txFrame [0x06, 0x30], txcnt := 6, tmr := 5000, fsm := .awaitAck }

/-- A receive operation just launched. -/
def receiving (op : Byte) (rxlen : BitVec 8) : State :=
  { blank with opr := op, rxlen := rxlen, tmr := 5000, fsm := .receiving }

/-- `RX_STATUS` with the first six bytes of `S(02)` in `RXBUF`. -/
def lastByte : State :=
  { receiving 0x03 0 with
    rxbuf := cells 0 [0x02, 0x06, 0x53, 0x02, 0x03, 0x00], idx := 6, rxcnt := 6 }

/-- A receive operation whose frame, `body` and the trailer `hi lo`, is in `RXBUF` and verified. -/
def replying (op : Byte) (rxlen : BitVec 8) (body : List Byte) (hi lo : Byte) : State :=
  { blank with
    opr := op, rxlen := rxlen, tmr := 5000, fsm := .replying
    rxbuf := cells 0 (body ++ [hi, lo])
    rxcnt := BitVec.ofNat 8 (body.length + 2)
    csumCalc := Config.csum16 body, csumWire := be16 hi lo }

/-- The body of the status report `S(02)`. -/
def statusBody : List Byte := [0x02, 0x06, 0x53, 0x02, 0x03]

/-- The body of the version report `V(01, 34, 00)`. -/
def versionBody : List Byte := [0x02, 0x06, 0x56, 0x01, 0x34, 0x00, 0x03]

/-- `body` received with a good trailer. -/
def good (op : Byte) (rxlen : BitVec 8) (body : List Byte) : State :=
  replying op rxlen body (hi8 (Config.csum16 body)) (lo8 (Config.csum16 body))

/-- `body` received with its last byte one too high. -/
def bad (op : Byte) (rxlen : BitVec 8) (body : List Byte) : State :=
  replying op rxlen body (hi8 (Config.csum16 body)) (lo8 (Config.csum16 body) + 1)

/-- The state an outcome goes on in. -/
def next? : Host.Outcome State Fault Refusal → Option State
  | .next s => some s
  | .fault _ => none
  | .refused _ => none

/-! ## WellFormed: each check refuses an ill-formed term -/

theorem test_reserved_six_refused :
    Instr.wellFormed Config.standard (.reserved 0x06) = false := by decide

theorem test_long_command_frame_refused :
    Instr.wellFormed Config.standard (.commandFrame (List.replicate 33 0xFF)) = false := by decide

theorem test_long_report_frame_refused :
    Instr.wellFormed Config.standard (.reportFrame (List.replicate 63 0x00)) = false := by decide

/-! ## Decode: words written out from the spec's encodings (`opcode_table.json`) -/

/-- Format `CMD`, the op field in bits 7:0 and bits 31:8 ignored (R110, V-X5). -/
theorem test_decode_cmd :
    [0b00000000000000000000000000000000#32, 0b00000000000000000000000100000001#32,
      0b00000000000000000000000000000010#32, 0b00000000000000000000000000000011#32,
      0b10000000000000000000000000000100#32, 0b00000000000000000000000000000101#32,
      0b11111111111111111111111100000110#32].map decodeCmd =
    [.nop, .exec, .rxFrame, .rxStatus, .rxVersion, .rxCard, .flush] := by decide

theorem test_decode_reserved :
    [0b00000000000000000000000000000111#32, 0b00000000000000000000000000101010#32,
      0b00000000000000000000000011111111#32].map decodeCmd =
    [.reserved 0x07, .reserved 0x2A, .reserved 0xFF] := by decide

theorem test_decode_wire_bytes :
    decodeWireByte .sent 0b00000010#8 = .ok (.stx .sent) ∧
      decodeWireByte .accepted 0b00000011#8 = .ok (.etx .accepted) ∧
      decodeWireByte .taken 0b00000110#8 = .ok (.ack .taken) ∧
      decodeWireByte .taken 0b00010101#8 = .ok (.nack .taken) ∧
      decodeWireByte .taken 0b01000001#8 = .error (.notAWireByteRow 0x41) := ⟨rfl, rfl, rfl, rfl, rfl⟩

theorem test_decode_payload_byte0 :
    decodePayloadByte0 0b00000110#8 = .ok .classShort ∧
      decodePayloadByte0 0b00000111#8 = .ok .classParam ∧
      decodePayloadByte0 0b00000000#8 = .error (.notAClassMarker 0x00) := ⟨rfl, rfl, rfl⟩

/-- The frame `02 06 30 03 00 36` of V-E0, with the byte sum the spec's vectors use. -/
theorem test_decode_command_frame (h : Config.csum16 [0x06, 0x30] = 0x0036) :
    decode Config.standard (.txFrame [0x02, 0x06, 0x30, 0x03, 0x00, 0x36]) =
      .ok (.commandFrame [0x06, 0x30]) := by
  rw [decode]
  refine (decodeTxFrame_iff Config.standard _ _).2 ⟨[0x06, 0x30], rfl, ?_, by decide⟩
  show _ = [0x02] ++ [0x06, 0x30] ++ [0x03] ++ trailer (Config.csum16 [0x06, 0x30])
  rw [h]
  rfl

/-- The frame `02 06 53 02 03 00 60` of P3, with the byte sum the spec's vectors use. -/
theorem test_decode_report_frame (h : Config.csum16 statusBody = 0x0060) :
    decode Config.standard (.rxFrame [0x02, 0x06, 0x53, 0x02, 0x03, 0x00, 0x60]) =
      .ok (.reportFrame statusBody) := by
  rw [decode]
  refine (decodeRxFrame_iff Config.standard _ _).2 ⟨statusBody, rfl, ?_, by decide⟩
  rw [rxFrame, h]
  rfl

theorem test_decode_pseudo :
    decodePseudo .reset = .cmdReset ∧ decodePseudo .startRead = .cmdStartRead ∧
      decodePseudo .beep = .cmdBeep ∧ decodePseudo (.bufferSelect 2) = .cmdBufferSelect 2 ∧
      decodePseudo (.flowControl 1) = .cmdFlowControl 1 ∧
      decodePseudo (.verification 1) = .cmdVerification 1 ∧
      decodePseudo (.readCount 2) = .cmdReadCount 2 ∧
      decodePseudo (.clockCount 0x10 [0x27]) = .cmdClockCount 0x10 [0x27] ∧
      decodePseudo (.displayText [0x41]) = .cmdDisplayText [0x41] ∧
      decodePseudo .versionQuery = .cmdVersionQuery :=
  ⟨rfl, rfl, rfl, rfl, rfl, rfl, rfl, rfl, rfl, rfl⟩

theorem test_table_words :
    decodeTableWord 32 0x00000001 = some .exec ∧ decodeTableWord 32 0x00000003 = some .rxStatus ∧
      decodeTableWord 8 0x03 = some (.etx .sent) ∧ decodeTableWord 8 0x15 = some (.nack .sent) ∧
      decodeTableWord 8 0x07 = some .classParam ∧ decodeTableWord 40 0x01 = none :=
  ⟨rfl, rfl, rfl, rfl, rfl, rfl⟩

/-! ## Format CMD: one step each -/

/-- V-X2: a `NOP` after an `ACKED` exchange leaves STATUS 00010016. -/
theorem test_nop_keeps_status :
    (next? (step (State.line (.wr 0x000 0x00)
      { blank with opr := 0x01, done := true, result := .acked }))).map statusWord =
      some 0x00010016 := by decide

/-- V-E13: the register keeps bits 7:0, so `WR TXLEN, 0xFFFFFFFF` is 255 and `EXEC` ends 00010062. -/
theorem test_exec_too_long :
    (next? (step (State.line (.wr 0x000 0x101) { blank with txlen := 0xFF, rxq := [0x09] }))).map
        (fun t => (statusWord t, t.rxq, countWord t)) = some (0x00010062, [0x09], 0) := by decide

/-- V-E12 to V-E16: a legal launch flushes the queue and is in `SENDING`, STATUS 00010101. -/
theorem test_exec_launch :
    (next? (step (State.line (.wr 0x000 0x01) { loaded [0x06, 0x30] with rxq := [0x15] }))).map
        (fun t => (statusWord t, t.rxq, t.txbuf)) =
      some (0x00010101, [], [(0, 0x06), (1, 0x30)]) := by decide

/-- V-R5: `RXLEN = 65` ends 00020062 and does not load the timer. -/
theorem test_rx_frame_too_long :
    (next? (step (State.line (.wr 0x000 0x02) { blank with rxlen := 65 }))).map
        (fun t => (statusWord t, t.tmr)) = some (0x00020062, 0) := by decide

/-- `RX_FRAME` with `RXLEN = 64` is in `RECEIVING` with the timer loaded (R151), the queue kept. -/
theorem test_rx_frame_launch :
    (next? (step (State.line (.wr 0x000 0x02) { blank with rxlen := 64, rxq := [0x09] }))).map
        (fun t => (statusWord t, t.tmr, t.rxq)) = some (0x00020301, 5000, [0x09]) := by decide

theorem test_rx_status_launch :
    (next? (step (State.line (.wr 0x000 0x03) { blank with timeout := 2 }))).map
        (fun t => (statusWord t, t.tmr, frameLen t)) = some (0x00030301, 2, 7) := by decide

theorem test_rx_version_launch :
    (next? (step (State.line (.wr 0x000 0x04) blank))).map
        (fun t => (statusWord t, t.tmr, frameLen t)) = some (0x00040301, 5000, 9) := by decide

/-- V-R16: STATUS 00050092, `rxq` untouched. -/
theorem test_rx_card :
    (next? (step (State.line (.wr 0x000 0x05) { blank with rxq := [0x09] }))).map
        (fun t => (statusWord t, countWord t, t.rxq)) = some (0x00050092, 0, [0x09]) := by decide

/-- V-X3: `rxq = [06 15]`, `FLUSH`: STATUS 000600B6, the queue empty, the results cleared. -/
theorem test_flush :
    (next? (step (State.line (.wr 0x000 0x06)
        { blank with rxq := [0x06, 0x15], rxcnt := 7, ackbyte := 0x15, ackvalid := true }))).map
        (fun t => (statusWord t, t.rxq, countWord t, ackWord t)) =
      some (0x000600B6, [], 0, 0) := by decide

/-- V-E19: a `FLUSH` written while `EXEC` is in flight is ignored. -/
theorem test_flush_busy :
    (next? (step (State.line (.wr 0x000 0x06) { awaiting with rxq := [0x15] }))).map
        (fun t => (statusWord t, t.rxq)) = some (0x00010201, [0x15]) := by decide

/-- V-X4: `WR CMD, 0x2A`: STATUS 002A00A2, `rxq` untouched. -/
theorem test_reserved :
    (next? (step (State.line (.wr 0x000 0x2A) { blank with rxq := [0x09] }))).map
        (fun t => (statusWord t, t.rxq)) = some (0x002A00A2, [0x09]) := by decide

/-! ## Wire bytes -/

/-- The first offer of V-E0 is 02 (R95). -/
theorem test_stx_accepted :
    (next? (step (State.move .txAccept sending))).map
        (fun t => (t.wireTx, t.txcnt, t.idx, statusWord t)) = some ([0x02], 1, 1, 0x00010101) := by
  decide

/-- The fourth offer of V-E0 is 03 (R95); the third is a payload byte, no row of the table. -/
theorem test_etx_accepted :
    (next? (step (State.move .txAccept { sending with idx := 3, txcnt := 3 }))).map
        (fun t => (t.wireTx, t.idx)) = some ([0x03], 4) ∧
      (next? (step (State.move .txAccept { sending with idx := 2, txcnt := 2 }))).map
        (fun t => (t.wireTx, t.idx)) = some ([0x30], 3) := by decide

/-- V-E1: STATUS 00010016, COUNT 00000106, ACK 00000106. -/
theorem test_ack_taken :
    (next? (step (State.move .rxPoll { awaiting with rxq := [0x06] }))).map
        (fun t => (statusWord t, countWord t, ackWord t, t.rxq)) =
      some (0x00010016, 0x00000106, 0x00000106, []) := by decide

/-- V-E2: STATUS 00010022, ACK 00000115. -/
theorem test_nack_taken :
    (next? (step (State.move .rxPoll { awaiting with rxq := [0x15] }))).map
        (fun t => (statusWord t, countWord t, ackWord t)) =
      some (0x00010022, 0x00000106, 0x00000115) := by decide

/-- V-E3: a byte outside the two, STATUS 00010032. -/
theorem test_violation_taken :
    (next? (step (State.move .rxPoll { awaiting with rxq := [0x41] }))).map
        (fun t => (statusWord t, ackWord t)) = some (0x00010032, 0x00000141) := by decide

/-- V-E18: a NACK that comes during `SENDING` waits in `rxq`. -/
theorem test_nack_sent_early :
    (next? (step (State.move (.dev 0x15) sending))).map (fun t => (statusWord t, t.rxq)) =
      some (0x00010101, [0x15]) := by decide

/-- V-E4 and V-E6: with the timer at 0 a quiet line times out, STATUS 00010042, and a pending byte wins. -/
theorem test_expired_timer :
    (next? (step (State.move .rxPoll { awaiting with tmr := 0 }))).map
        (fun t => (statusWord t, ackWord t)) = some (0x00010042, 0) ∧
      (next? (step (State.move .rxPoll { awaiting with tmr := 0, rxq := [0x06] }))).map statusWord =
        some 0x00010016 := by decide

/-- V-E7 and V-E9: a read error, and an offer answered `TXFAIL`: STATUS 00010052. -/
theorem test_transport_failures :
    (next? (step (State.move .rxErr { awaiting with rxq := [0x06] }))).map
        (fun t => (statusWord t, countWord t, t.rxq)) = some (0x00010052, 0x00000006, [0x06]) ∧
      (next? (step (State.move .txFail sending))).map (fun t => (statusWord t, countWord t)) =
        some (0x00010052, 0) := by decide

/-! ## Payload byte 0 -/

/-- P1, `100 ← 00000006`: the other entries stay. -/
theorem test_class_short :
    (next? (step (State.line (.wr 0x100 0x06) { blank with txbuf := [(1, 0x30)] }))).map
        (fun t => t.txbuf) = some [(0, 0x06), (1, 0x30)] := by decide

/-- P2, `100 ← 00000007`. -/
theorem test_class_param :
    (next? (step (State.line (.wr 0x100 0x07) (loaded [0x06, 0x30])))).map
        (fun t => (t.txbuf, t.txlen)) = some ([(0, 0x07), (1, 0x30)], 2) := by decide

/-! ## Frames -/

/-- V-E0, R76: the frame crosses byte by byte: 02 alone in this step, the other five bytes still to come. -/
theorem test_command_frame :
    (next? (exec (.commandFrame [0x06, 0x30]) sending)).map
        (fun t => (t.wireTx, statusWord t, countWord t, t.sched)) =
      some ([0x02], 0x00010101, 1, List.replicate 5 .txAccept) := by
  rw [exec, execCommandFrame, if_pos ⟨rfl, rfl, rfl⟩]
  rfl

/-- `DEV` of the report `S(02)` of P3: 02 is on the line, its other six bytes are to come, and nothing else has
moved. -/
theorem test_report_frame (h : Config.csum16 statusBody = 0x0060) :
    next? (exec (.reportFrame statusBody) (receiving 0x03 0)) =
      some { receiving 0x03 0 with
        rxq := [0x02], sched := [.dev 0x06, .dev 0x53, .dev 0x02, .dev 0x03, .dev 0x00, .dev 0x60] } := by
  show some (devSendRun (rxFrame statusBody) _) = _
  rw [rxFrame, h]
  rfl

/-! ## The receive operations' engine steps -/

/-- V-R3 and V-R10: a mismatch answers NACK, STATUS 00030082, DEVSTAT 0000000D; a refused reply 00030052. -/
theorem test_status_failures (h : be16 0x00 0x61 ≠ Config.csum16 statusBody) :
    (next? (step (State.move .txAccept (replying 0x03 0 statusBody 0x00 0x61)))).map
        (fun t => (statusWord t, t.wireTx, countWord t, devstatWord t.devstat)) =
      some (0x00030082, [0x15], 0x00000701, 0x0000000D) ∧
    (next? (step (State.move .txFail (replying 0x03 0 statusBody 0x00 0x61)))).map
        (fun t => (statusWord t, t.wireTx, countWord t, devstatWord t.devstat)) =
      some (0x00030052, [], 0x00000700, 0x0000000D) := by
  refine ⟨?_, rfl⟩
  have hm : matched (replying 0x03 0 statusBody 0x00 0x61) = false := decide_eq_false (Ne.symm h)
  rw [step_txAccept (ms := []) rfl, offerAccepted_replying rfl, replyAccepted]
  have hm' : matched { State.move .txAccept (replying 0x03 0 statusBody 0x00 0x61) with sched := [] } =
      false := hm
  rw [hm']
  rfl

/-- P3 and P5: DEVSTAT 0000020A and VERSION 87003401 from a frame that verified. -/
theorem test_decoded_reports :
    devstatWord (decodeReport (good 0x03 0 statusBody)).devstat = 0x0000020A ∧
      versionWord (decodeReport (good 0x04 0 versionBody)).version = 0x87003401 := ⟨rfl, rfl⟩

/-- V-S, the rows of one and of several bits. -/
theorem test_status_decode :
    [0x00, 0x02, 0x01, 0x08, 0x10, 0x04, 0x20, 0x03, 0x09, 0x18, 0xFF].map
        (fun b => devstatWord ⟨decodeStatus Config.standard b, true, b⟩) =
      [0x00000008, 0x0000020A, 0x00000109, 0x0000080B, 0x0000100C, 0x00000408, 0x00002008, 0x00000309,
        0x00000909, 0x0000180B, 0x0000FF09] := by decide

/-- V-V, the version register. -/
theorem test_version_decode :
    versionWord (decodeVersion Config.standard 0x01 0x34 0x00) = 0x87003401 ∧
      versionWord (decodeVersion Config.standard 0x09 0x99 0x09) = 0x80099909 ∧
      versionWord (decodeVersion Config.standard 0x01 0x99 0x00) = 0x85009901 ∧
      versionWord (decodeVersion Config.standard 0x00 0x00 0x00) = 0x84000000 := by decide

/-! ## Registers -/

/-- V-X1: STATUS, TIMEOUT, TMR, COUNT, DEVSTAT and VERSION after reset. -/
theorem test_reset_reads :
    [0x001, 0x004, 0x00B, 0x007, 0x009, 0x00A].map (regRead blank) =
      [0x00000000, 0x00001388, 0, 0, 0, 0] := by decide

/-- V-X7 and V-X8: byte registers keep bits 7:0; a reserved index reads 0. -/
theorem test_buffer_and_reserved :
    regRead (regWrite 0x103 0x1FF blank) 0x103 = 0x000000FF ∧ regRead blank 0x00C = 0 ∧
      regRead blank 0x150 = 0 ∧ regWrite 0x001 0xFFFFFFFF blank = blank := ⟨rfl, rfl, rfl, rfl⟩

/-! ## Device commands: one step each, the template left open -/

/-- What one step of a device command leaves: its first line, `WR TXBUF[0], t[0]`, is performed and the host has
the others to go (R190). -/
def begun (n : TemplateName) (i : Instr) : Prop :=
  exec i blank = .next { blank with
    txbuf := [(0, (Config.template n).cls.byte)]
    host := (commandLines Config.standard (templateBytes n)).tail }

theorem begun_of {n : TemplateName} {i : Instr} (h : exec i blank = submit (templateBytes n) blank) :
    begun n i := by
  have ht : (templateBytes n).take Config.standard.maxPayload =
      (Config.template n).cls.byte :: (templateBytes n).tail.take 31 := rfl
  obtain ⟨rest, hl⟩ : ∃ rest, commandLines Config.standard (templateBytes n) =
      .wr 0x100 ((Config.template n).cls.byte.setWidth 32) :: rest :=
    ⟨_, by rw [commandLines, ht, List.mapIdx_cons, List.cons_append]; rfl⟩
  rw [begun, h, submit_eq (by exact hl), hl, show rest ++ blank.host = rest from List.append_nil rest]
  cases (Config.template n).cls <;> rfl

theorem test_cmd_reset : begun .reset .cmdReset := begun_of rfl
theorem test_cmd_start_read : begun .startRead .cmdStartRead := begun_of rfl
theorem test_cmd_beep : begun .beep .cmdBeep := begun_of rfl

/-- R193, flow control: 0 selects XON/XOFF, every other value RTS/CTS. -/
theorem test_cmd_flow_control :
    begun .flowXonXoff (.cmdFlowControl 0) ∧ begun .flowRtsCts (.cmdFlowControl 1) ∧
      begun .flowRtsCts (.cmdFlowControl 7) :=
  ⟨begun_of rfl, begun_of rfl, begun_of rfl⟩

theorem test_cmd_buffer_select (h : Config.selectsBuffer2 2 = true) :
    begun .buffer2 (.cmdBufferSelect 2) :=
  begun_of (by simp [exec, execCmdBufferSelect, bufferTemplate, h])

theorem test_cmd_verification (h : Config.selectsVerifyXor 0 = false) :
    begun .verifyChecksum (.cmdVerification 0) :=
  begun_of (by simp [exec, execCmdVerification, verificationTemplate, h])

theorem test_cmd_read_count (h : Config.selectsReadDouble 2 = true) :
    begun .readDouble (.cmdReadCount 2) :=
  begun_of (by simp [exec, execCmdReadCount, readCountTemplate, h])

/-- The parameter bytes follow the template. -/
theorem test_cmd_clock_count :
    exec (.cmdClockCount 0x10 [0x27]) blank =
      submit (templateBytes .clockCount ++ [0x10, 0x27]) blank := rfl

theorem test_cmd_version_query : begun .versionQuery .cmdVersionQuery := begun_of rfl

/-- A text of 300 bytes, longer than any payload. -/
def longText : List Byte := List.replicate 300 0x41

/-- R194: the length line of a text beyond the maximum, here of 300 bytes, is beyond it too, so that `EXEC` ends
`ENCODING_ERROR`. -/
theorem test_cmd_display_text (text : List Byte) (h : text.length = 300) :
    (commandLines Config.standard (0x07 :: 0x30 :: text)).drop 32 =
      [.wr 0x002 0xFF, .wr 0x000 0x01, .wait] := by
  rw [commandLines, List.drop_left' (by simp [h, Config.standard])]
  simp [h]

/-- R192: a template with an argument carries its parameter bytes, one without does not. -/
theorem test_template_parameters :
    templateBytes .readDouble =
        [(Config.template .readDouble).cls.byte, (Config.template .readDouble).sub] ++
          (Config.template .readDouble).sub2.toList ++ (Config.template .readDouble).params ∧
      templateBytes .beep =
        [(Config.template .beep).cls.byte, (Config.template .beep).sub] ++
          (Config.template .beep).sub2.toList :=
  ⟨rfl, by simp [templateBytes, TemplateName.takesArgument]⟩

/-- R190, R231: a reset between two lines of a device command leaves the later lines to the host. -/
theorem test_reset_between_lines :
    (next? (step { blank with sched := [.reset, .host], host := [.wr 0x002 0x02, .wr 0x000 0x01, .wait] })).map
        (fun t => (t.host, t.sched)) =
      some ([.wr 0x002 0x02, .wr 0x000 0x01, .wait], [.host]) := by decide

/-! ## The invariant of the small states -/

theorem standard_legal : Config.standard.Legal := by constructor <;> decide

theorem read_none_of_keys {n : Nat} {m : Memory} (h : ∀ c ∈ m, c.1 < n) (a : Nat) (ha : n ≤ a) :
    Memory.read m a = none := by
  induction m with
  | nil => rfl
  | cons c m ih =>
    have hc := h c (by simp)
    rw [Memory.read, if_neg (by omega)]
    exact ih fun d hd => h d (by simp [hd])

/-- No result has been left: what `clear_results()` leaves of the registers the invariant speaks of. -/
structure Cleared (s : State) : Prop where
  done : s.done = false
  result : s.result = .none
  ackvalid : s.ackvalid = false
  ackbyte : s.ackbyte = 0
  devstat : s.devstat = ⟨.ok, false, 0⟩
  version : s.version = ⟨0, 0, 0, false, false, false, false⟩

theorem inv_of {s : State} (hc : s.cfg = Config.standard) (ht : Memory.wf s.txbuf = true)
    (hr : Memory.wf s.rxbuf = true) (kt : ∀ c ∈ s.txbuf, c.1 < 32) (kr : ∀ c ∈ s.rxbuf, c.1 < 64)
    (hs : s.Sequenced) (h : Cleared s) : s.Inv := by
  have htx : s.cfg.maxPayload = 32 := by rw [hc]; rfl
  have hrx : s.cfg.rxBufSize = 64 := by rw [hc]; rfl
  refine ⟨hc ▸ standard_legal, ⟨ht, hr, ?_, ?_⟩, hs, ?_⟩
  · rw [htx]
    exact read_none_of_keys kt
  · rw [hrx]
    exact read_none_of_keys kr
  · constructor <;> simp [h.done, h.result, h.ackvalid, h.ackbyte, h.devstat, h.version]

theorem blank_inv (ms : List Move) (ls : List HostLine) (q : List Byte) :
    ({ blank with sched := ms, host := ls, rxq := q } : State).Inv :=
  (show blank.Inv from inv_of rfl rfl rfl (by decide) (by decide) rfl
    ⟨rfl, rfl, rfl, rfl, rfl, rfl⟩).environment 0 q ls [] ms 0

theorem sending_inv (ms : List Move) : ({ sending with sched := ms } : State).Inv :=
  (show sending.Inv from inv_of rfl rfl rfl (by decide) (by decide)
    ⟨rfl, by decide, rfl, rfl, by decide, rfl, rfl⟩
    ⟨rfl, rfl, rfl, rfl, rfl, rfl⟩).environment 0 [] [] [] ms 0

theorem awaiting_inv (ms : List Move) (q : List Byte) (t : Word) :
    ({ awaiting with sched := ms, rxq := q, tmr := t } : State).Inv :=
  (show awaiting.Inv from inv_of rfl rfl rfl (by decide) (by decide) ⟨rfl, by decide, rfl, rfl, rfl⟩
    ⟨rfl, rfl, rfl, rfl, rfl, rfl⟩).environment t q [] [] ms 0

theorem receiving_inv (ms : List Move) (q : List Byte) (t : Word) :
    ({ receiving 0x03 0 with sched := ms, rxq := q, tmr := t } : State).Inv :=
  (show (receiving 0x03 0).Inv from inv_of rfl rfl rfl (by decide) (by decide)
    ⟨⟨by decide, by decide, by decide, rfl⟩, by decide, rfl, rfl, rfl, rfl⟩
    ⟨rfl, rfl, rfl, rfl, rfl, rfl⟩).environment t q [] [] ms 0

/-- The shortest frame, `RXLEN = 2` (R26). -/
theorem receiving_two_inv (ms : List Move) (q : List Byte) :
    ({ receiving 0x02 2 with sched := ms, rxq := q } : State).Inv :=
  (show (receiving 0x02 2).Inv from inv_of rfl rfl rfl (by decide) (by decide)
    ⟨⟨by decide, by decide, by decide, rfl⟩, by decide, rfl, rfl, rfl, rfl⟩
    ⟨rfl, rfl, rfl, rfl, rfl, rfl⟩).environment 5000 q [] [] ms 0

theorem lastByte_inv (ms : List Move) (q : List Byte) :
    ({ lastByte with sched := ms, rxq := q } : State).Inv :=
  (show lastByte.Inv from inv_of rfl rfl rfl (by decide) (by decide)
    ⟨⟨by decide, by decide, by decide, rfl⟩, by decide, rfl, rfl, rfl, rfl⟩
    ⟨rfl, rfl, rfl, rfl, rfl, rfl⟩).environment 5000 q [] [] ms 0

theorem frame_inv (ms : List Move) (hi lo : Byte) :
    ({ replying 0x02 7 statusBody hi lo with sched := ms } : State).Inv :=
  (show (replying 0x02 7 statusBody hi lo).Inv from inv_of rfl rfl rfl (by simp [replying, blank, State.powerOn])
    (by simp [replying, statusBody, cells])
    ⟨⟨.inl rfl, (by decide : 2 ≤ 7), (by decide : 7 ≤ 64), rfl⟩, rfl, rfl, rfl, rfl, rfl⟩
    ⟨rfl, rfl, rfl, rfl, rfl, rfl⟩).environment 5000 [] [] [] ms 0

theorem status_inv (ms : List Move) (hi lo : Byte) :
    ({ replying 0x03 0 statusBody hi lo with sched := ms } : State).Inv :=
  (show (replying 0x03 0 statusBody hi lo).Inv from inv_of rfl rfl rfl (by simp [replying, blank, State.powerOn])
    (by simp [replying, statusBody, cells])
    ⟨⟨.inr (.inl rfl), (by decide : 2 ≤ 7), (by decide : 7 ≤ 64), rfl⟩, rfl, rfl, rfl, rfl, rfl⟩
    ⟨rfl, rfl, rfl, rfl, rfl, rfl⟩).environment 5000 [] [] [] ms 0

theorem version_inv (ms : List Move) (hi lo : Byte) :
    ({ replying 0x04 0 versionBody hi lo with sched := ms } : State).Inv :=
  (show (replying 0x04 0 versionBody hi lo).Inv from inv_of rfl rfl rfl (by simp [replying, blank, State.powerOn])
    (by simp [replying, versionBody, cells])
    ⟨⟨.inr (.inr rfl), (by decide : 2 ≤ 9), (by decide : 9 ≤ 64), rfl⟩, rfl, rfl, rfl, rfl, rfl⟩
    ⟨rfl, rfl, rfl, rfl, rfl, rfl⟩).environment 5000 [] [] [] ms 0

theorem good_sums (op : Byte) (n : BitVec 8) (body : List Byte) :
    (good op n body).csumCalc = (good op n body).csumWire := (be16_hi8_lo8 _).symm

theorem bad_sums (op : Byte) (n : BitVec 8) (body : List Byte) :
    (bad op n body).csumCalc ≠ (bad op n body).csumWire := by
  intro h
  have hl : lo8 (Config.csum16 body) = lo8 (Config.csum16 body) + 1 :=
    (congrArg lo8 (show Config.csum16 body = be16 _ _ from h)).trans (lo8_be16 _ _)
  have hn := congrArg BitVec.toNat hl
  rw [BitVec.toNat_add] at hn
  have := (lo8 (Config.csum16 body)).isLt
  simp at hn
  omega

theorem templateBytes_le {n : TemplateName} (h : n.takesArgument = false) :
    (templateBytes n).length ≤ 3 := by
  unfold templateBytes
  generalize Config.template n = T
  obtain ⟨_, _, _ | _, _⟩ := T <;> simp [h]

theorem line_not_reset (l : HostLine) (s : State) : ¬ resetMoves (State.line l s) := by
  simp [resetMoves, State.line]

/-! ## Witnesses: concrete states and operands that meet the hypotheses of each statement -/

theorem witness_NopChangesNothing : (0xFFFFFF00 : Word).toNat % 256 = 0 := by decide

theorem witness_LaunchFirstClearsResults :
    (0x0000002A : Word).toNat % 256 ≠ 0 ∧ (loaded [0x06, 0x30]).fsm = .idle := by decide

theorem witness_FlushEmptiesQueueAndEnds :
    (0xFFFFFF06 : Word).toNat % 256 = 6 ∧ ∃ t, exec .flush blank = .next t := ⟨by decide, _, rfl⟩

theorem witness_ReservedCodeEndsIllegalOp :
    7 ≤ (0x00000107 : Word).toNat % 256 ∧ 7 ≤ (0x07 : Byte).toNat ∧ 7 ≤ (0xFF : Byte).toNat ∧
      blank.fsm = .idle ∧ ∃ t, exec (.reserved 0x07) blank = .next t :=
  ⟨by decide, by decide, by decide, rfl, _, rfl⟩

theorem witness_CardReadEndsNotImplemented :
    (0x00000105 : Word).toNat % 256 = 5 ∧ blank.fsm = .idle ∧ ∃ t, exec .rxCard blank = .next t :=
  ⟨by decide, rfl, _, rfl⟩

/-- Each length of the statement at its boundary: 33 and 255 bytes; 0, 2 and 32. -/
theorem witness_ExecLaunchByLength :
    ({ blank with txlen := 33 } : State).cfg.maxPayload < 33 ∧
    (∀ p ∈ [[], [0x06, 0x30], List.replicate 32 (0xFF : Byte)],
      (loaded p).fsm = .idle ∧ p.length = (loaded p).txlen.toNat ∧
        p.length ≤ (loaded p).cfg.maxPayload ∧
        ∀ i (h : i < p.length), Memory.read (loaded p).txbuf i = some p[i]) := by decide

theorem witness_ExecOverUnwrittenPayloadFaults :
    ∃ s : State, s.fsm = .idle ∧ s.txlen.toNat ≤ s.cfg.maxPayload ∧ 31 < s.txlen.toNat ∧
      Memory.read s.txbuf 31 = none ∧ Memory.read s.txbuf 0 = some 0x06 :=
  ⟨{ loaded [0x06] with txlen := 32 }, rfl, by decide, by decide, rfl, rfl⟩

/-- The lengths 1 and 65 are illegal, 2 and 64 legal. -/
theorem witness_ReceiveLaunchByLength :
    blank.fsm = .idle ∧ blank.cfg.Legal ∧ (1#8).toNat < 2 ∧ blank.cfg.rxBufSize < (65#8).toNat ∧
      2 ≤ (2#8).toNat ∧ (64#8).toNat ≤ blank.cfg.rxBufSize :=
  ⟨rfl, standard_legal, by decide, by decide, by decide, by decide⟩

/-- Two states that differ in every kind of result register. -/
theorem witness_NoResultSurvivesALaunch :
    (0x01 : Word).toNat % 256 ≠ 0 ∧ (loaded [0x06, 0x30]).fsm = .idle ∧
      (loaded [0x06, 0x30]).SameButResults
        { loaded [0x06, 0x30] with
          done := true, result := .rxOk, rxcnt := 7, txcnt := 1, csumCalc := 0x60, csumWire := 0x60
          opr := 0x03, devstat := ⟨.waiting, true, 0x02⟩ } :=
  ⟨by decide, rfl, rfl, rfl, rfl, rfl, rfl, rfl, rfl, rfl, rfl, rfl, rfl, rfl, rfl, rfl⟩

theorem witness_DeviceByteIsQueued : (State.move (.dev 0x41) sending).sched = .dev 0x41 :: [] := rfl

theorem witness_AcknowledgmentRowsEndTheExchange :
    ∀ b ∈ [(0x06 : Byte), 0x15, 0x02, 0x03],
      ({ awaiting with rxq := [b, 0x41] } : State).fsm = .awaitAck ∧
        ({ awaiting with rxq := [b, 0x41] } : State).rxq = b :: [0x41] :=
  fun _ _ => ⟨rfl, rfl⟩

/-- Offset 0, and offset `TXLEN + 1` for `TXLEN` 0, 2 and 251. -/
theorem witness_DelimiterRowsAreSent :
    sending.fsm = .sending ∧ sending.txlen.toNat ≤ 251 ∧ sending.idx.toNat = 0 ∧
      (∀ n ∈ [0, 2, 251],
        ({ sending with txlen := BitVec.ofNat 8 n, idx := BitVec.ofNat 8 (n + 1) } : State).idx.toNat =
          ({ sending with txlen := BitVec.ofNat 8 n, idx := BitVec.ofNat 8 (n + 1) } : State).txlen.toNat
            + 1) := by decide

theorem witness_ReplyRowsEndTheReception :
    (good 0x02 7 statusBody).fsm = .replying ∧ (good 0x02 7 statusBody).opr = 0x02 ∧
      (good 0x02 7 statusBody).csumCalc = (good 0x02 7 statusBody).csumWire ∧
      (bad 0x02 7 statusBody).fsm = .replying ∧ (bad 0x02 7 statusBody).opr = 0x02 ∧
      (bad 0x02 7 statusBody).csumCalc ≠ (bad 0x02 7 statusBody).csumWire :=
  ⟨rfl, rfl, good_sums _ _ _, rfl, rfl, bad_sums _ _ _⟩

/-- Not polling; polling with another byte or none first; nothing offered; another byte offered. -/
theorem witness_WireByteOffItsTurnStays :
    (Instr.ack, (0x06 : Byte)) ∈
        [(Instr.stx, (0x02 : Byte)), (Instr.etx, 0x03), (Instr.ack, 0x06), (Instr.nack, 0x15)] ∧
      polling { blank with rxq := [0x06] } = false ∧
      ({ awaiting with rxq := [0x15] } : State).rxq.head? ≠ some 0x06 ∧
      offered blank ≠ some 0x06 ∧ offered sending ≠ some 0x06 :=
  ⟨by simp, rfl, by decide, by decide, by decide⟩

theorem witness_ClassMarkerIsWrittenToEntryZero :
    blank.cfg.Legal ∧ blank.fsm = .idle ∧ awaiting.cfg.Legal ∧ awaiting.fsm ≠ .idle :=
  ⟨standard_legal, rfl, standard_legal, by decide⟩

theorem witness_CommandFrameCrossesWhole :
    sending.Inv ∧ sending.fsm = .sending ∧ sending.idx = 0 ∧ payload sending = [0x06, 0x30] ∧
      awaiting.Inv ∧ awaiting.fsm ≠ .sending ∧ payload sending ≠ [] :=
  ⟨sending_inv [], rfl, rfl, rfl, awaiting_inv [] [] 5000, by decide, by decide⟩

/-- The status report of seven bytes with a byte left over, and the shortest frame of two. -/
theorem witness_PendingFrameIsReceivedWhole :
    (∃ (s : State) (f q : List Byte), s.Inv ∧ s.fsm = .receiving ∧ s.idx = 0 ∧
      f.length = frameLen s ∧ s.rxq = f ++ q ∧ q ≠ [] ∧
      s.sched = List.replicate f.length .rxPoll ++ []) ∧
    ∃ (s : State) (f : List Byte), s.Inv ∧ s.fsm = .receiving ∧ s.idx = 0 ∧
      f.length = frameLen s ∧ f.length = 2 ∧ s.rxq = f ++ [] ∧
      s.sched = List.replicate f.length .rxPoll ++ [] :=
  ⟨⟨_, [0x02, 0x06, 0x53, 0x02, 0x03, 0x00, 0x60], [0x41],
      receiving_inv (List.replicate 7 .rxPoll ++ [])
        ([0x02, 0x06, 0x53, 0x02, 0x03, 0x00, 0x60] ++ [0x41]) 5000,
      rfl, rfl, rfl, rfl, by decide, rfl⟩,
    ⟨_, [0x00, 0x00], receiving_two_inv (List.replicate 2 .rxPoll ++ []) ([0x00, 0x00] ++ []),
      rfl, rfl, rfl, rfl, rfl, rfl⟩⟩

/-- The last byte of the frame, the byte before it, and the run from offset 0. -/
theorem witness_SendAcceptedStep :
    (∀ i ∈ [4, 5],
      (State.move .txAccept { sending with idx := BitVec.ofNat 8 i }).fsm = .sending ∧
        (State.move .txAccept { sending with idx := BitVec.ofNat 8 i }).sched = .txAccept :: []) ∧
      (5#8).toNat = sending.txlen.toNat + 3 ∧ (4#8).toNat ≠ sending.txlen.toNat + 3 ∧
      ∃ s : State, s.Inv ∧ s.fsm = .sending ∧ s.idx = 0 ∧ payload s = [0x06, 0x30] ∧
        s.sched = List.replicate (s.txlen.toNat + 4) .txAccept ++ [] :=
  ⟨fun _ _ => ⟨rfl, rfl⟩, by decide, by decide, _, sending_inv (List.replicate 6 .txAccept ++ []),
    rfl, rfl, rfl, rfl⟩

theorem witness_AckByteStep :
    ∀ b : Byte, (State.move .rxPoll { awaiting with rxq := [b] }).fsm = .awaitAck ∧
      (State.move .rxPoll { awaiting with rxq := [b] }).rxq = b :: [] ∧
      (State.move .rxPoll { awaiting with rxq := [b] }).sched = .rxPoll :: [] :=
  fun _ => ⟨rfl, rfl, rfl⟩

/-- One state for each failure, and one with a tick left. -/
theorem witness_ExchangeFailureSteps :
    (∃ s : State, s.Inv ∧ s.fsm = .sending ∧ s.sched = .txFail :: []) ∧
    (∃ s : State, s.Inv ∧ s.fsm = .awaitAck ∧ s.sched = .rxErr :: []) ∧
    (∃ s : State, s.Inv ∧ s.fsm = .awaitAck ∧ s.sched = .rxPoll :: [] ∧ s.rxq = [] ∧ s.tmr = 0) ∧
    ∃ s : State, s.Inv ∧ s.fsm = .awaitAck ∧ s.sched = .rxPoll :: [] ∧ s.rxq = [] ∧ s.tmr ≠ 0 :=
  ⟨⟨_, sending_inv [.txFail], rfl, rfl⟩, ⟨_, awaiting_inv [.rxErr] [0x06] 0, rfl, rfl⟩,
    ⟨_, awaiting_inv [.rxPoll] [] 0, rfl, rfl, rfl, rfl⟩,
    ⟨_, awaiting_inv [.rxPoll] [] 1, rfl, rfl, rfl, by decide⟩⟩

/-- The first byte of a frame, and its last. -/
theorem witness_RecvByteStep :
    (∃ s : State, s.Inv ∧ s.fsm = .receiving ∧ s.rxq = 0x02 :: [] ∧ s.sched = .rxPoll :: [] ∧
      s.idx.toNat + 1 ≠ frameLen s) ∧
    ∃ (s : State) (f : List Byte), s.Inv ∧ s.fsm = .receiving ∧ s.rxq = 0x60 :: [] ∧
      s.sched = .rxPoll :: [] ∧ s.idx.toNat + 1 = frameLen s ∧ f.length = frameLen s ∧
      ∀ i (h : i < f.length), Memory.read (Memory.write s.rxbuf s.idx.toNat 0x60) i = some f[i] :=
  ⟨⟨_, receiving_inv [.rxPoll] [0x02] 5000, rfl, rfl, rfl, by decide⟩,
    ⟨_, [0x02, 0x06, 0x53, 0x02, 0x03, 0x00, 0x60], lastByte_inv [.rxPoll] [0x60], rfl, rfl, rfl, rfl,
      rfl, by decide⟩⟩

theorem witness_RecvErrorAndTimeoutSteps :
    (∃ s : State, s.Inv ∧ s.fsm = .receiving ∧ s.opr = 0x03 ∧ s.sched = .rxErr :: []) ∧
    (∃ s : State, s.Inv ∧ s.fsm = .receiving ∧ s.opr = 0x02 ∧ s.sched = .rxErr :: []) ∧
    (∃ s : State, s.Inv ∧ s.fsm = .receiving ∧ s.sched = .rxPoll :: [] ∧ s.rxq = [] ∧ s.tmr = 0) ∧
    ∃ s : State, s.Inv ∧ s.fsm = .receiving ∧ s.sched = .rxPoll :: [] ∧ s.rxq = [] ∧ s.tmr ≠ 0 :=
  ⟨⟨_, receiving_inv [.rxErr] [] 5000, rfl, rfl, rfl⟩, ⟨_, receiving_two_inv [.rxErr] [], rfl, rfl, rfl⟩,
    ⟨_, receiving_inv [.rxPoll] [] 0, rfl, rfl, rfl, rfl⟩,
    ⟨_, receiving_inv [.rxPoll] [] 1, rfl, rfl, rfl, by decide⟩⟩

/-- Both waits, with every event present at once, then without the first, then without both. -/
theorem witness_PollFollowsThePriority :
    (∃ s : State, (s.fsm = .awaitAck ∨ s.fsm = .receiving) ∧ s.sched = .rxErr :: [] ∧
      s.rxq ≠ [] ∧ s.tmr = 0) ∧
    (∃ s : State, (s.fsm = .awaitAck ∨ s.fsm = .receiving) ∧ s.sched = .rxPoll :: [] ∧
      s.rxq = 0x06 :: [] ∧ s.tmr = 0) ∧
    (∃ s : State, (s.fsm = .awaitAck ∨ s.fsm = .receiving) ∧ s.sched = .rxPoll :: [] ∧
      s.rxq = [] ∧ s.tmr = 0) ∧
    ∃ s : State, (s.fsm = .awaitAck ∨ s.fsm = .receiving) ∧ s.sched = .rxPoll :: [] ∧
      s.rxq = [] ∧ s.tmr ≠ 0 :=
  ⟨⟨{ awaiting with sched := [.rxErr], rxq := [0x06], tmr := 0 }, .inl rfl, rfl, by decide, rfl⟩,
    ⟨{ receiving 0x03 0 with sched := [.rxPoll], rxq := [0x06], tmr := 0 }, .inr rfl, rfl, rfl, rfl⟩,
    ⟨{ receiving 0x03 0 with sched := [.rxPoll], tmr := 0 }, .inr rfl, rfl, rfl, rfl⟩,
    ⟨{ awaiting with sched := [.rxPoll], tmr := 1 }, .inl rfl, rfl, rfl, by decide⟩⟩

/-- A match for each of the three operations, and a mismatch. -/
theorem witness_ReplyAcceptedStep :
    (∃ s : State, s.Inv ∧ s.fsm = .replying ∧ s.sched = .txAccept :: [] ∧ s.csumCalc = s.csumWire ∧
      s.opr = 0x02) ∧
    (∃ s : State, s.Inv ∧ s.fsm = .replying ∧ s.sched = .txAccept :: [] ∧ s.csumCalc = s.csumWire ∧
      s.opr = 0x03) ∧
    (∃ s : State, s.Inv ∧ s.fsm = .replying ∧ s.sched = .txAccept :: [] ∧ s.csumCalc = s.csumWire ∧
      s.opr = 0x04) ∧
    ∃ s : State, s.Inv ∧ s.fsm = .replying ∧ s.sched = .txAccept :: [] ∧ s.csumCalc ≠ s.csumWire :=
  ⟨⟨_, frame_inv [.txAccept] (hi8 (Config.csum16 statusBody)) (lo8 (Config.csum16 statusBody)),
      rfl, rfl, good_sums 0x02 7 _, rfl⟩,
    ⟨_, status_inv [.txAccept] (hi8 (Config.csum16 statusBody)) (lo8 (Config.csum16 statusBody)),
      rfl, rfl, good_sums 0x03 0 _, rfl⟩,
    ⟨_, version_inv [.txAccept] (hi8 (Config.csum16 versionBody)) (lo8 (Config.csum16 versionBody)),
      rfl, rfl, good_sums 0x04 0 _, rfl⟩,
    ⟨_, status_inv [.txAccept] (hi8 (Config.csum16 statusBody)) (lo8 (Config.csum16 statusBody) + 1),
      rfl, rfl, bad_sums 0x03 0 statusBody⟩⟩

theorem witness_ReplyFailedStep :
    (∃ s : State, s.Inv ∧ s.fsm = .replying ∧ s.sched = .txFail :: [] ∧ s.opr = 0x03) ∧
      ∃ s : State, s.Inv ∧ s.fsm = .replying ∧ s.sched = .txFail :: [] ∧ s.opr = 0x04 :=
  ⟨⟨_, status_inv [.txFail] 0 0, rfl, rfl, rfl⟩, ⟨_, version_inv [.txFail] 0 0, rfl, rfl, rfl⟩⟩

/-- A tick; a step that enters a wait; a step that does not. -/
theorem witness_TimerIsLoadedOrTicked :
    (State.move .tick awaiting).sched = .tick :: [] ∧
    (∃ s t : State, step s = .next t ∧ ¬ resetMoves s ∧ s.sched.head? ≠ some .tick ∧
      t.fsm ≠ s.fsm ∧ t.fsm = .receiving) ∧
    ∃ s t : State, step s = .next t ∧ ¬ resetMoves s ∧ s.sched.head? ≠ some .tick ∧ t.fsm = s.fsm :=
  ⟨rfl, ⟨State.line (.wr 0x000 0x03) blank, _, rfl, line_not_reset _ _, by decide, by decide, rfl⟩,
    ⟨State.move (.dev 0x41) blank, _, rfl, by simp [resetMoves, State.move], by decide, rfl⟩⟩

/-- No tick, one short of all, and all; in `AWAIT_ACK`, and in `RECEIVING` of `RX_STATUS` and of `RX_FRAME`. -/
theorem witness_QuietWaitTimesOut :
    ∀ n ∈ [0, 1, 2], ∀ u ∈ [awaiting, receiving 0x03 0, receiving 0x02 2],
      ∃ s : State, s = { u with tmr := 2, sched := List.replicate n .tick ++ [.rxPoll] } ∧
        (s.fsm = .awaitAck ∨ s.fsm = .receiving) ∧ s.rxq = [] ∧ n ≤ s.tmr.toNat ∧
        s.sched = List.replicate n .tick ++ .rxPoll :: [] := by
  intro n hn u hu
  have h2 : n ≤ 2 := by
    revert n
    decide
  simp only [List.mem_cons, List.not_mem_nil, or_false] at hu
  obtain rfl | rfl | rfl := hu
  · exact ⟨_, rfl, .inl rfl, rfl, h2, rfl⟩
  · exact ⟨_, rfl, .inr rfl, rfl, h2, rfl⟩
  · exact ⟨_, rfl, .inr rfl, rfl, h2, rfl⟩

/-- Any index and value, idle and busy: the indexes 0x000, 0x002 to 0x004, 0x100, 0x11F, 0x120 among them. -/
theorem witness_HostWriteStoresByIndex :
    ∀ s ∈ [blank, awaiting], ∀ (a : BitVec 10) (v : Word),
      (State.line (.wr a v) s).cfg.Legal ∧ (State.line (.wr a v) s).sched = .host :: [] ∧
        (State.line (.wr a v) s).host = .wr a v :: [] := by
  intro s hs a v
  simp only [List.mem_cons, List.not_mem_nil, or_false] at hs
  obtain rfl | rfl := hs <;> exact ⟨standard_legal, rfl, rfl⟩

/-- First and last entry of each buffer, and the ends of each range of reserved indexes. -/
theorem witness_RegisterReadPlacesFields :
    blank.cfg.Legal ∧
    (∀ i ∈ [0, 31], i < blank.cfg.maxPayload ∧
      Memory.read (loaded (List.replicate 32 0xFF)).txbuf i = some 0xFF) ∧
    (∀ i ∈ [0, 6], i < (good 0x03 0 statusBody).rxcnt.toNat ∧ i < blank.cfg.rxBufSize ∧
      ∃ b, Memory.read (good 0x03 0 statusBody).rxbuf i = some b) ∧
    ∀ a ∈ [(0x00C : BitVec 10), 0x0FF, 0x120, 0x1FF, 0x240, 0x3FF],
      (0x00C ≤ a.toNat ∧ a.toNat < 0x100) ∨
        (0x100 + blank.cfg.maxPayload ≤ a.toNat ∧ a.toNat < 0x200) ∨
        0x200 + blank.cfg.rxBufSize ≤ a.toNat := by
  refine ⟨standard_legal, by decide, ?_, by decide⟩
  intro i hi
  simp only [List.mem_cons, List.not_mem_nil, or_false] at hi
  obtain rfl | rfl := hi
  · exact ⟨by decide, by decide, _, rfl⟩
  · exact ⟨by decide, by decide, _, rfl⟩

/-- A defined register and an undefined buffer entry. -/
theorem witness_HostReadHasNoSideEffect :
    ∀ a ∈ [(0x001 : BitVec 10), 0x100],
      (State.line (.rd a) awaiting).sched = .host :: [] ∧
        (State.line (.rd a) awaiting).host = .rd a :: [] ∧
        unspecified blank (regAt blank.cfg 0x001) = false ∧
        unspecified blank (regAt blank.cfg 0x100) = true :=
  fun _ _ => ⟨rfl, rfl, rfl, rfl⟩

/-- `DONE` 0 and `DONE` 1. -/
theorem witness_WaitRepeatsUntilDone :
    (∃ s : State, s.done = false ∧ s.sched = .host :: [] ∧ s.host = .wait :: []) ∧
      ∃ s : State, s.done = true ∧ s.sched = .host :: [] ∧ s.host = .wait :: [] :=
  ⟨⟨State.line .wait awaiting, rfl, rfl, rfl⟩,
    ⟨State.line .wait { blank with done := true, result := .flushed }, rfl, rfl, rfl⟩⟩

/-- Opcode bytes that fit, opcode bytes that do not, and a busy block. -/
theorem witness_DeviceCommandLaunchesItsTemplate :
    blank.cfg.Legal ∧ blank.fsm = .idle ∧ awaiting.fsm ≠ .idle ∧
      Catalogued .reset (templateBytes .reset) ∧
      (templateBytes .reset).length ≤ blank.cfg.maxPayload ∧
      Catalogued (.displayText longText)
        (templateBytes .displayText ++ longText) ∧
      blank.cfg.maxPayload < (templateBytes .displayText ++ longText).length ∧
      Catalogued (.flowControl 0) (templateBytes .flowXonXoff) ∧
      Catalogued (.flowControl 1) (templateBytes .flowRtsCts) := by
  refine ⟨standard_legal, rfl, by decide, rfl, ?_, rfl, ?_, .inl ⟨rfl, rfl⟩, .inr ⟨by decide, rfl⟩⟩
  · exact Nat.le_trans (templateBytes_le rfl) (by decide)
  · rw [List.length_append, longText, List.length_replicate]
    show 32 < _
    omega

/-- An idle block, and a busy one. -/
theorem witness_DeviceCommandIsItsLines :
    ∀ s ∈ [blank, awaiting],
      s.cfg.Legal ∧ (templateBytes .beep).length ≤ s.cfg.maxPayload ∧
        Catalogued .beep (templateBytes .beep) := by
  intro s hs
  simp only [List.mem_cons, List.not_mem_nil, or_false] at hs
  obtain rfl | rfl := hs <;>
    exact ⟨standard_legal, Nat.le_trans (templateBytes_le rfl) (by decide), rfl⟩

theorem witness_TemplateBeginsWithClassMarker :
    TemplateName.takesArgument .beep = false ∧ TemplateName.takesArgument .versionQuery = false ∧
      TemplateName.takesArgument .readDouble = true := ⟨rfl, rfl, rfl⟩

/-- The bounds the table sets, each met at its end. -/
theorem witness_DecodeOfEncodeIsTheInstruction :
    Instr.wellFormed Config.standard (.reserved 0x07) = true ∧
      Instr.wellFormed Config.standard (.commandFrame (List.replicate 32 0xFF)) = true ∧
      Instr.wellFormed Config.standard (.reportFrame (List.replicate 62 0x00)) = true := by decide

theorem witness_DecodedEncodingIsRecovered :
    decode Config.standard (.cmd 0xFFFFFF01) = .ok .exec ∧
      decode Config.standard (.txFrame (txFrame [0x06, 0x30])) = .ok (.commandFrame [0x06, 0x30]) :=
  ⟨rfl, (decodeTxFrame_iff Config.standard _ _).2 ⟨[0x06, 0x30], rfl, rfl, by decide⟩⟩

theorem witness_OfferedBytesSpellTheFrame :
    payload sending = [0x06, 0x30] ∧ sending.csumTx = Config.csum16 [0x06, 0x30] := ⟨rfl, rfl⟩

theorem witness_ClassifyAndReplyBytes : (0x41 : Byte) ≠ 0x06 ∧ (0x41 : Byte) ≠ 0x15 := by decide

/-- A byte for each named bit with the bits before it clear, and a byte with unnamed bits only. -/
theorem witness_StatusDecodeTakesFirstNamedBit :
    let c := Config.standard
    (0xFF : Byte) &&& c.maskRam ≠ 0 ∧
      ((0x1A : Byte) &&& c.maskRam = 0 ∧ (0x1A : Byte) &&& c.maskWait ≠ 0) ∧
      ((0x18 : Byte) &&& c.maskRam = 0 ∧ (0x18 : Byte) &&& c.maskWait = 0 ∧
        (0x18 : Byte) &&& c.maskWrongRead ≠ 0) ∧
      ((0x10 : Byte) &&& c.maskRam = 0 ∧ (0x10 : Byte) &&& c.maskWait = 0 ∧
        (0x10 : Byte) &&& c.maskWrongRead = 0 ∧ (0x10 : Byte) &&& c.maskWrongClock ≠ 0) ∧
      (0xE4 : Byte) &&& (c.maskRam ||| c.maskWait ||| c.maskWrongRead ||| c.maskWrongClock) = 0 := by
  decide

theorem witness_StepRunsTheDecodedInstruction :
    fetch (State.line (.wr 0x000 0x01) blank) = some (.cmd 0x01) ∧
      decode (State.line (.wr 0x000 0x01) blank).cfg (.cmd 0x01) = .ok .exec := ⟨rfl, rfl⟩

theorem witness_PlacedWordIsRunNext :
    blank.cfg = Config.standard ∧ decodeTableWord 32 0x2A = some (.reserved 0x2A) := ⟨rfl, rfl⟩

theorem witness_ResetLeavesTheTabledValues :
    (State.move .reset { awaiting with rxq := [0x41] }).sched = .reset :: [] := rfl

theorem witness_ResetMeetsTheInvariant : Config.standard.Legal := standard_legal

/-- A step that keeps the block idle, one that launches, one that ends an exchange. -/
theorem witness_StepKeepsTheInvariant :
    ∃ s t : State, s.Inv ∧ step s = .next t ∧ s.fsm = .awaitAck ∧ t.fsm = .idle :=
  ⟨_, _, awaiting_inv [.rxPoll] [0x06] 5000, rfl, rfl, rfl⟩

/-- A step that leaves `IDLE`, and a host move while an operation is in flight. -/
theorem witness_SequencingFollowsTheEdges :
    (∃ s t : State, step s = .next t ∧ ¬ resetMoves s ∧ s.fsm = .idle ∧ t.fsm ≠ .idle) ∧
      ∃ s t : State, step s = .next t ∧ ¬ resetMoves s ∧ hostMoves s ∧ s.fsm ≠ .idle :=
  ⟨⟨State.line (.wr 0x000 0x03) blank, _, rfl, line_not_reset _ _, rfl, by decide⟩,
    ⟨State.line (.wr 0x000 0x06) awaiting, _, rfl, line_not_reset _ _, rfl, by decide⟩⟩

theorem witness_UnansweredOfferHangs :
    ∃ s t : State, (s.fsm = .sending ∨ s.fsm = .replying) ∧ s.sched.head? = some .tick ∧
      s.sched.head? ≠ some .txAccept ∧ s.sched.head? ≠ some .txFrame ∧
      s.sched.head? ≠ some .txFail ∧ s.sched.head? ≠ some .reset ∧ step s = .next t :=
  ⟨State.move .tick sending, _, .inl rfl, rfl, by decide, by decide, by decide, by decide, rfl⟩

/-- A byte taken into `RXBUF`: an entry of it does change, and the host is not moving. -/
theorem witness_BuffersHaveOneWriter :
    ∃ s t : State, step s = .next t ∧ ¬ resetMoves s ∧ ¬ (hostMoves s ∧ s.fsm = .idle) ∧
      Memory.read t.rxbuf 0 ≠ Memory.read s.rxbuf 0 :=
  ⟨State.move .rxPoll { receiving 0x03 0 with rxq := [0x02] }, _, rfl,
    by simp [resetMoves, State.move], by simp [hostMoves, State.move], by decide⟩

theorem witness_ReceivedBytesAreFirstInFirstOut :
    ∃ s t : State, step s = .next t ∧ t.rxq ≠ s.rxq :=
  ⟨State.move .rxPoll { receiving 0x03 0 with rxq := [0x02] }, _, rfl, by decide⟩

theorem witness_WireHistoryOnlyGrows :
    ∃ s t : State, step s = .next t ∧ ¬ resetMoves s ∧ t.wireTx ≠ s.wireTx :=
  ⟨State.move .txAccept sending, _, rfl, by simp [resetMoves, State.move], by decide⟩

theorem witness_ArgumentsChangeOnlyWhileIdle :
    ∃ s t : State, step s = .next t ∧ ¬ resetMoves s ∧ ¬ (hostMoves s ∧ s.fsm = .idle) ∧ hostMoves s :=
  ⟨State.line (.wr 0x002 0x05) awaiting, _, rfl, line_not_reset _ _,
    by simp [State.line, awaiting], rfl⟩

/-- A launch by code, and a step that launches nothing. -/
theorem witness_OperationCodeIsTheLastLaunch :
    (∃ s t : State, step s = .next t ∧ ¬ resetMoves s ∧ hostMoves s ∧ s.fsm = .idle ∧
      s.host = .wr 0x000 0x12A :: [] ∧ (0x12A : Word).toNat % 256 ≠ 0) ∧
    ∃ s t : State, step s = .next t ∧ ¬ resetMoves s ∧ ¬ launches s :=
  ⟨⟨State.line (.wr 0x000 0x12A) blank, _, rfl, line_not_reset _ _, rfl, rfl, rfl, by decide⟩,
    ⟨State.move .tick blank, _, rfl, by simp [resetMoves, State.move],
      by simp [launches, hostMoves, State.move]⟩⟩

/-- An `ACKED` exchange, and a host read after it. -/
theorem witness_ResultsHoldUntilTheNextLaunch :
    ∃ s t : State, s.Inv ∧ s.done = true ∧ step s = .next t ∧ ¬ resetMoves s ∧ ¬ launches s := by
  refine ⟨State.line (.rd 0x001)
      { awaiting with
        fsm := .idle, rxcnt := 1, ackbyte := 0x06, ackvalid := true, result := .acked, done := true },
    _, ?_, rfl, rfl, line_not_reset _ _, by simp [launches, State.line]⟩
  have b := (awaiting_inv [] [] 5000).buffers
  refine ⟨standard_legal, ⟨rfl, rfl, b.txbuf_bound, b.rxbuf_bound⟩, rfl, ?_⟩
  constructor <;> simp [State.line, awaiting, sending, loaded, blank, State.powerOn, classify]

/-- A step that stops. -/
theorem witness_OnlyAnUnwrittenPayloadStops :
    ∃ s : State, step s = .fault .txbufUnwritten :=
  ⟨State.line (.wr 0x000 0x01) { blank with txlen := 1 }, rfl⟩

end Sys2Proof.Tests
end

/-! The invariant of the block: the result registers in flight and at the ends of an operation, the buffers, the
engine by sequencing state, and the step. -/

namespace Sys2Proof.Machine

/-! ## What the sequencing and the result registers say while an operation is in flight -/

/-- No operation has left a result: the result registers the invariant speaks of are as `clear_results()`
leaves them (R46). -/
structure State.NoResults (s : State) : Prop where
  done : s.done = false
  result : s.result = .none
  ackvalid : s.ackvalid = false
  ackbyte : s.ackbyte = 0
  devstat : s.devstat = ⟨.ok, false, 0⟩
  version : s.version = ⟨0, 0, 0, false, false, false, false⟩

theorem beginOp_noResults (op : Byte) (s : State) : (beginOp op s).NoResults :=
  ⟨rfl, rfl, rfl, rfl, rfl, rfl⟩

theorem State.NoResults.sound {s : State} (h : s.NoResults) : s.ResultsSound := by
  constructor <;> simp [h.done, h.result, h.ackvalid, h.ackbyte, h.devstat, h.version]

/-- In flight the result registers are still as the launch cleared them. -/
theorem State.Inv.noResults {s : State} (h : s.Inv) (hb : s.fsm ≠ .idle) : s.NoResults := by
  have r := h.results
  have hd : s.done = false := r.busy_not_done hb
  have hr : s.result = .none := by
    by_contra hne
    exact absurd (r.done_iff.2 hne) (by simp [hd])
  have ha : s.ackvalid = false := by
    rw [Bool.eq_false_iff, ne_eq, r.ack_iff, hr]
    simp
  have hdv : s.devstat.valid = false := by
    rw [Bool.eq_false_iff, ne_eq, r.devstat_iff, hd]
    simp
  have hvv : s.version.valid = false := by
    rw [Bool.eq_false_iff, ne_eq, r.version_iff, hr]
    simp
  obtain ⟨hcode, hraw⟩ := r.devstat_cleared hdv
  obtain ⟨hm, hf, hh, hmk, hfk, hhk⟩ := r.version_cleared hvv
  refine ⟨hd, hr, ha, r.ack_cleared ha, ?_, ?_⟩
  · cases hdev : s.devstat
    simp_all
  · cases hver : s.version
    simp_all

/-! ## What the ends of an operation leave in the result registers -/

/-- A result code of an operation that ended neither with an acknowledgment byte nor with a frame that
verified. -/
def ResultCode.Plain (code : ResultCode) : Prop :=
  code ≠ .none ∧ code ≠ .acked ∧ code ≠ .nacked ∧ code ≠ .violation ∧ code ≠ .rxOk

theorem classify_cases (b : Byte) :
    classify b = .acked ∨ classify b = .nacked ∨ classify b = .violation := by
  unfold classify
  split
  · exact .inl rfl
  · split
    · exact .inr (.inl rfl)
    · exact .inr (.inr rfl)

theorem decodeStatus_ne_error (c : Config) (b : Byte) : decodeStatus c b ≠ .error := by
  unfold decodeStatus
  repeat' split
  all_goals simp

/-- `finish_rx` after an operation without a result (R159, R161). -/
theorem State.NoResults.finishRx_sound {u : State} (h : u.NoResults) {code : ResultCode}
    (hc : code.Plain)
    (hm : code = .checksumMismatch → u.csumCalc ≠ u.csumWire ∧ u.wireTx.getLast? = some 0x15#8) :
    (finishRx code u).ResultsSound := by
  obtain ⟨hnone, hacked, hnacked, hviol, hrxOk⟩ := hc
  rw [finishRx_eq]
  by_cases hop : u.opr = 0x03#8 <;> constructor
  case pos.mismatch_sums | neg.mismatch_sums => exact hm
  all_goals
    simp [h.ackvalid, h.ackbyte, h.devstat, h.version, hop, hnone, hacked, hnacked, hviol, hrxOk]

/-- `finish` of an operation other than `RX_STATUS` after no result (R204). -/
theorem State.NoResults.finish_sound {u : State} (h : u.NoResults) (hop : u.opr ≠ 0x03) {code : ResultCode}
    (hc : code.Plain) (hm : code ≠ .checksumMismatch) : (finish code u).ResultsSound := by
  have := h.finishRx_sound hc fun e => absurd e hm
  rwa [finishRx, if_neg hop] at this

/-- *ack-byte* (R136). -/
theorem State.NoResults.ackByte_sound {u : State} (h : u.NoResults) (hop : u.opr = 0x01) (b : Byte)
    (rest : List Byte) : (ackByte b rest u).ResultsSound := by
  rcases classify_cases b with hb | hb | hb <;> constructor <;>
    simp [ackByte, hb, h.devstat, h.version, hop]

/-- *reply-accepted* after a frame that verified (R157). -/
theorem State.NoResults.replyAccepted_sound {u : State} (h : u.NoResults) (hm : u.csumCalc = u.csumWire) :
    (replyAccepted u).ResultsSound := by
  rw [replyAccepted_match hm, decodeReport_eq]
  by_cases hs : u.opr = 0x03#8
  · constructor <;>
      simp [h.ackvalid, h.ackbyte, h.version, hm, hs, decodeStatus_ne_error]
  · by_cases hv : u.opr = 0x04#8
    · constructor <;> simp [h.ackvalid, h.ackbyte, h.devstat, hm, hv, decodeVersion]
    · constructor <;> simp [h.ackvalid, h.ackbyte, h.devstat, h.version, hm, hs, hv]

/-! ## The buffers -/

/-- Storing a byte inside `TXBUF` keeps the buffers in form (R28). -/
theorem State.BuffersSound.txbuf_write {s : State} (h : s.BuffersSound) {i : Nat}
    (hi : i < s.cfg.maxPayload) (b : Byte) :
    ({ s with txbuf := Memory.write s.txbuf i b } : State).BuffersSound :=
  ⟨Memory.wf_write h.txbuf_wf i b, h.rxbuf_wf,
    fun a (ha : s.cfg.maxPayload ≤ a) =>
      (Memory.read_write_other _ _ _ (by omega)).trans (h.txbuf_bound a ha),
    h.rxbuf_bound⟩

/-- Storing a byte inside `RXBUF` keeps the buffers in form (R37). -/
theorem State.BuffersSound.rxbuf_write {s : State} (h : s.BuffersSound) {i : Nat}
    (hi : i < s.cfg.rxBufSize) (b : Byte) :
    ({ s with rxbuf := Memory.write s.rxbuf i b } : State).BuffersSound :=
  ⟨h.txbuf_wf, Memory.wf_write h.rxbuf_wf i b, h.txbuf_bound,
    fun a (ha : s.cfg.rxBufSize ≤ a) =>
      (Memory.read_write_other _ _ _ (by omega)).trans (h.rxbuf_bound a ha)⟩

/-- The form of the buffers depends on the buffers alone. -/
theorem State.BuffersSound.congr {s t : State} (h : s.BuffersSound) (hc : t.cfg = s.cfg)
    (htx : t.txbuf = s.txbuf) (hrx : t.rxbuf = s.rxbuf) : t.BuffersSound := by
  obtain ⟨h1, h2, h3, h4⟩ := h
  exact ⟨htx ▸ h1, hrx ▸ h2, hc ▸ htx ▸ h3, hc ▸ hrx ▸ h4⟩

/-! ## Launches keep the invariant -/

/-- Every launch keeps the invariant. -/
theorem Launch.keeps_inv {u t : State} (h : Launch u t) (hu : u.Inv) : t.Inv := by
  have hbuf : t.BuffersSound :=
    have ⟨hc, _, _, _, htx, hrx, _⟩ := h.frame
    hu.buffers.congr hc htx hrx
  cases h with
  | ignored => exact hu
  | ends op code idle code_is op_ne =>
    refine ⟨hu.legal, hbuf, rfl, (beginOp_noResults op u).finish_sound (op_ne hu.legal).1 ?_ ?_⟩
    all_goals rcases code_is with rfl | rfl | rfl <;> simp [ResultCode.Plain]
  | flushes idle =>
    have h0 : (rxFlush (beginOp 0x06 u)).NoResults := ⟨rfl, rfl, rfl, rfl, rfl, rfl⟩
    exact ⟨hu.legal, hbuf, rfl, h0.finish_sound (by simp) (by simp [ResultCode.Plain]) (by simp)⟩
  | sends idle length written =>
    exact ⟨hu.legal, hbuf, ⟨rfl, length, written, rfl, Nat.zero_le _, rfl, rfl⟩,
      State.NoResults.sound ⟨rfl, rfl, rfl, rfl, rfl, rfl⟩⟩
  | receives op idle op_is len_ge len_le =>
    have hop : State.ReceiveOp { beginOp op u with idx := 0, tmr := u.timeout, fsm := .receiving } :=
      ⟨op_is, len_ge, len_le, rfl⟩
    exact ⟨hu.legal, hbuf, ⟨hop, Nat.zero_lt_two.trans_le len_ge, rfl, rfl, rfl, rfl⟩,
      State.NoResults.sound ⟨rfl, rfl, rfl, rfl, rfl, rfl⟩⟩

/-! ## Engine steps keep the invariant -/

/-- What an engine step never touches. -/
theorem EngineStep.frame {m : Move} {u t : State} (h : EngineStep m u t) :
    t.cfg = u.cfg ∧ t.opr = u.opr ∧ t.txlen = u.txlen ∧ t.rxlen = u.rxlen ∧ t.timeout = u.timeout ∧
      t.txbuf = u.txbuf ∧ t.csumTx = u.csumTx ∧ t.host = u.host ∧ t.hostRd = u.hostRd ∧
      t.sched = u.sched ∧ t.free = u.free := by
  cases h <;> exact ⟨rfl, rfl, rfl, rfl, rfl, rfl, rfl, rfl, rfl, rfl, rfl⟩

/-- `RXBUF` is written by the engine only as it stores the byte a poll takes (R37, R153). -/
theorem EngineStep.rxbuf {m : Move} {u t : State} (h : EngineStep m u t) :
    t.rxbuf = u.rxbuf ∨
      m = .rxPoll ∧ u.fsm = .receiving ∧
        ∃ b, u.rxq.head? = some b ∧ t.rxbuf = Memory.write u.rxbuf u.idx.toNat b := by
  cases h with
  | recvMore b rest move fsm oldest => exact .inr ⟨move, fsm, b, by rw [oldest]; rfl, rfl⟩
  | recvLast b rest f move fsm oldest => exact .inr ⟨move, fsm, b, by rw [oldest]; rfl, rfl⟩
  | _ => exact .inl rfl

/-- An offset below 255 is counted without wrapping (R15, R23). -/
theorem toNat_succ_of_lt {x : BitVec 8} (h : x.toNat < 255) : (x + 1).toNat = x.toNat + 1 := by
  bv_omega

/-- The two trailer bytes at the end of a span (R97). -/
theorem verify_bytes {m : Memory} {d : Byte} {n : Nat} (h : 2 ≤ n) :
    (verify (Memory.bytes m d n)).2.1 = Config.csum16 (Memory.bytes m d (n - 2)) ∧
      (verify (Memory.bytes m d n)).2.2 =
        be16 (Memory.readD m d (n - 2)) (Memory.readD m d (n - 1)) := by
  obtain ⟨k, rfl⟩ : ∃ k, n = k + 2 := ⟨n - 2, by omega⟩
  have hb : Memory.bytes m d (k + 2) =
      Memory.bytes m d k ++ [Memory.readD m d k, Memory.readD m d (k + 1)] := by
    rw [Memory.bytes_succ, Memory.bytes_succ, List.append_assoc, List.singleton_append]
  rw [hb, verify_append]
  exact ⟨rfl, rfl⟩

theorem sequenced_of_idle {s : State} (h : s.fsm = .idle) (hs : s.idx = 0) : s.Sequenced := by
  simpa only [State.Sequenced, h] using hs

theorem sequenced_of_sending {s : State} (h : s.fsm = .sending) (hs : s.Sending) : s.Sequenced := by
  simpa only [State.Sequenced, h] using hs

theorem sequenced_of_receiving {s : State} (h : s.fsm = .receiving) (hs : s.Receiving) :
    s.Sequenced := by
  simpa only [State.Sequenced, h] using hs

/-- An engine step keeps the buffers in form: the byte a poll takes is stored inside `RXBUF` (R150, R153). -/
theorem EngineStep.keeps_buffers {m : Move} {u t : State} (h : EngineStep m u t) (hu : u.Inv) :
    t.BuffersSound := by
  obtain ⟨hc, -, -, -, -, htx, -⟩ := h.frame
  rcases h.rxbuf with hrx | ⟨-, fsm, b, -, hrx⟩
  · exact hu.buffers.congr hc htx hrx
  · have hr := hu.receiving fsm
    exact (hu.buffers.rxbuf_write (hr.idx_lt.trans_le hr.op.len_le) b).congr hc htx hrx

/-- *send-accepted*, an earlier byte, stays in `SENDING` (R133). -/
theorem State.Sending.next {u : State} (h : u.Sending) (hfit : u.cfg.maxPayload ≤ 251)
    (more : u.idx.toNat ≠ u.txlen.toNat + 3) (w : List Byte) :
    State.Sending { u with wireTx := w, txcnt := u.txcnt + 1, idx := u.idx + 1 } := by
  obtain ⟨opr, length, written, csum, idx_le, txcnt, rxcnt⟩ := h
  have hidx : (u.idx + 1).toNat ≤ u.txlen.toNat + 3 := by
    rw [toNat_succ_of_lt (by omega)]
    omega
  exact ⟨opr, length, written, csum, hidx, congrArg (· + 1) txcnt, rxcnt⟩

/-- *send-accepted*, the last byte, enters the wait with `TXLEN + 4` bytes counted (R133). -/
theorem State.Sending.awaiting {u : State} (h : u.Sending) (hfit : u.cfg.maxPayload ≤ 251)
    (last : u.idx.toNat = u.txlen.toNat + 3) (w : List Byte) (tm : Word) :
    State.Awaiting
      { u with wireTx := w, txcnt := u.txcnt + 1, idx := 0, tmr := tm, fsm := .awaitAck } := by
  obtain ⟨opr, length, written, csum, idx_le, txcnt, rxcnt⟩ := h
  have hcnt : (u.txcnt + 1).toNat = u.txlen.toNat + 4 := by
    rw [txcnt, toNat_succ_of_lt (by omega), last]
  exact ⟨opr, length, rfl, hcnt, rxcnt⟩

/-- *recv-byte*, a byte before the last, stays in `RECEIVING` (R153). -/
theorem State.Receiving.next {u : State} (h : u.Receiving) (hfit : u.cfg.rxBufSize ≤ 255)
    (more : u.idx.toNat + 1 ≠ frameLen u) (b : Byte) (q : List Byte) :
    State.Receiving
      { u with
        rxq := q, rxcnt := u.rxcnt + 1
        rxbuf := Memory.write u.rxbuf u.idx.toNat b, idx := u.idx + 1 } := by
  obtain ⟨⟨opr, len_ge, len_le, txcnt⟩, idx_lt, rxcnt, stored, hcalc, hwire⟩ := h
  have hidx : (u.idx + 1).toNat = u.idx.toNat + 1 := toNat_succ_of_lt (by omega)
  have hlt : (u.idx + 1).toNat < frameLen u := by omega
  exact ⟨⟨opr, len_ge, len_le, txcnt⟩, hlt, congrArg (· + 1) rxcnt,
    hidx ▸ Memory.defined_write_succ stored b, hcalc, hwire⟩

/-- *recv-byte*, the last byte, leaves the whole frame stored and verified (R153, R155). -/
theorem State.Receiving.replying {u : State} (h : u.Receiving) (hfit : u.cfg.rxBufSize ≤ 255)
    (last : u.idx.toNat + 1 = frameLen u) (b : Byte) (q : List Byte) {f : List Byte}
    (frame : f = Memory.bytes (Memory.write u.rxbuf u.idx.toNat b) (undefinedByte u) (frameLen u)) :
    State.Replying
      { u with
        rxq := q, rxcnt := u.rxcnt + 1
        rxbuf := Memory.write u.rxbuf u.idx.toNat b
        csumCalc := (verify f).2.1, csumWire := (verify f).2.2
        idx := 0, fsm := .replying } := by
  obtain ⟨⟨opr, len_ge, len_le, txcnt⟩, idx_lt, rxcnt, stored, -, -⟩ := h
  have hcnt : (u.rxcnt + 1).toNat = frameLen u := by
    rw [rxcnt, toNat_succ_of_lt (by omega), last]
  obtain ⟨hcalc, hwire⟩ := verify_bytes (m := Memory.write u.rxbuf u.idx.toNat b)
    (d := undefinedByte u) len_ge
  subst frame
  exact ⟨⟨opr, len_ge, len_le, txcnt⟩, rfl, hcnt, last ▸ Memory.defined_write_succ stored b, hcalc,
    hwire⟩

/-- An engine step leads to what the sequencing state it enters says of the counters and the checksums. -/
theorem EngineStep.keeps_sequenced {m : Move} {u t : State} (h : EngineStep m u t) (hu : u.Inv) :
    t.Sequenced := by
  have htx : u.cfg.maxPayload ≤ 251 := hu.legal.maxPayload_le
  have hrx : u.cfg.rxBufSize ≤ 255 := hu.legal.rxBufSize_le
  cases h with
  | none => exact hu.sequenced
  | sentLast move fsm last => exact (hu.sending fsm).awaiting htx last _ _
  | sentMore move fsm more => exact sequenced_of_sending fsm ((hu.sending fsm).next htx more _)
  | recvMore b rest move fsm oldest more =>
    exact sequenced_of_receiving fsm ((hu.receiving fsm).next hrx more b rest)
  | recvLast b rest f move fsm oldest last frame =>
    exact (hu.receiving fsm).replying hrx last b rest frame
  | exchangeEnds | ackByte | receptionEnds | replied | rejected => rfl

/-- An engine step inside an operation leaves the result registers clear, and one that ends it sets them as
its result code says (R201). -/
theorem EngineStep.keeps_results {m : Move} {u t : State} (h : EngineStep m u t) (hu : u.Inv) :
    t.ResultsSound := by
  cases h with
  | none => exact hu.results
  | sentLast _ fsm | sentMore _ fsm | recvMore _ _ _ fsm | recvLast _ _ _ _ fsm =>
    obtain ⟨hd, hr, hav, hab, hds, hv⟩ := hu.noResults (by simp [fsm])
    exact State.NoResults.sound ⟨hd, hr, hav, hab, hds, hv⟩
  | exchangeEnds code from_ code_is =>
    have hopr : u.opr = 0x01 ∧ u.fsm ≠ .idle := by
      rcases from_ with ⟨fsm, -⟩ | ⟨fsm, -⟩
      · exact ⟨(hu.sending fsm).opr, by simp [fsm]⟩
      · exact ⟨(hu.awaiting fsm).opr, by simp [fsm]⟩
    refine (hu.noResults hopr.2).finish_sound (by simp [hopr.1]) ?_ ?_
    all_goals rcases code_is with rfl | rfl <;> simp [ResultCode.Plain]
  | ackByte b rest move fsm =>
    exact (hu.noResults (by simp [fsm])).ackByte_sound (hu.awaiting fsm).opr b rest
  | receptionEnds code from_ code_is =>
    have hbusy : u.fsm ≠ .idle := by
      rcases from_ with ⟨fsm, -⟩ | ⟨fsm, -⟩ <;> simp [fsm]
    have hres := (hu.noResults hbusy).finishRx_sound (code := code)
      (by rcases code_is with rfl | rfl <;> simp [ResultCode.Plain])
      (by rcases code_is with rfl | rfl <;> simp)
    rwa [finishRx_eq] at hres
  | replied move fsm sums =>
    have hres := (hu.noResults (by simp [fsm])).replyAccepted_sound sums
    rwa [replyAccepted_match sums, decodeReport_eq] at hres
  | rejected move fsm sums =>
    obtain ⟨hd, hr, hav, hab, hds, hv⟩ := hu.noResults (by simp [fsm])
    have hlog : (logTx 0x15 u).NoResults := ⟨hd, hr, hav, hab, hds, hv⟩
    have hres := hlog.finishRx_sound (code := .checksumMismatch) (by simp [ResultCode.Plain])
      fun _ => ⟨sums, by simp⟩
    rwa [finishRx_eq] at hres

/-- Every engine step keeps the invariant. -/
theorem EngineStep.keeps_inv {m : Move} {u t : State} (h : EngineStep m u t) (hu : u.Inv) : t.Inv :=
  ⟨h.frame.1 ▸ hu.legal, h.keeps_buffers hu, h.keeps_sequenced hu, h.keeps_results hu⟩

/-! ## The host's writes and the reset input -/

/-- A write to an index other than that of `CMD` keeps the invariant (R63 to R65). -/
theorem regWrite_keeps_inv (a : BitVec 10) (v : Word) {u : State} (hu : u.Inv) :
    (regWrite a v u).Inv := by
  obtain ⟨l, r, tm, m, heq, hbusy, hm⟩ := regWrite_shape a v u
  by_cases hi : u.fsm = .idle
  · rw [heq]
    have hbuf : ({ u with txbuf := m } : State).BuffersSound := by
      rcases hm with rfl | ⟨i, hlt, rfl⟩
      · exact hu.buffers
      · exact hu.buffers.txbuf_write hlt _
    obtain ⟨r1, r2, r3, r4, r5, r6, r7, r8, r9, r10, r11, r12, r13⟩ := hu.results
    exact ⟨hu.legal, hbuf.congr rfl rfl rfl, sequenced_of_idle hi (hu.idle hi),
      ⟨r1, r2, r3, r4, r5, r6, r7, r8, r9, r10, r11, r12, r13⟩⟩
  · exact (hbusy hi).symm ▸ hu

/-- The power-on state of every legal configuration meets the invariant, whatever bytes are pending. -/
theorem powerOn_inv {c : Config} (hc : c.Legal) (q : List Byte) : (State.powerOn c q).Inv :=
  ⟨hc, ⟨rfl, rfl, fun _ _ => rfl, fun _ _ => rfl⟩, rfl,
    State.NoResults.sound ⟨rfl, rfl, rfl, rfl, rfl, rfl⟩⟩

/-- The reset input leads to a state of the invariant (R230). -/
theorem resetPin_inv {u : State} (hc : u.cfg.Legal) : (resetPin u).Inv :=
  (powerOn_inv hc u.rxq).environment 0 u.rxq u.host u.hostRd u.sched u.free

/-- Every step keeps the invariant. -/
theorem StepCase.keeps_inv {s t : State} (h : StepCase s t) (hs : s.Inv) : t.Inv := by
  have moved : ∀ (ms : List Move) (ls : List HostLine),
      ({ s with sched := ms, host := ls } : State).Inv := fun ms ls =>
    hs.environment s.tmr s.rxq ls s.hostRd ms s.free
  cases h with
  | stutter => exact hs
  | device b ms => exact hs.environment s.tmr (s.rxq ++ [b]) s.host s.hostRd ms s.free
  | spent ms => exact moved ms s.host
  | tick ms => exact hs.environment _ s.rxq s.host s.hostRd ms s.free
  | engine m ms ms' t _ _ does => exact does.keeps_inv (moved ms' s.host)
  | reset ms => exact resetPin_inv hs.legal
  | command ms ls a v t _ _ _ launch => exact (launch_cases launch).keeps_inv (moved ms ls)
  | write ms ls a v => exact regWrite_keeps_inv a v (moved ms ls)
  | reads ms ls vs k => exact hs.environment s.tmr s.rxq ls vs ms k

/-- Settles O51, by the inversion of a step: each of its cases keeps the invariant. -/
theorem stepKeepsTheInvariant : Obligations.StepKeepsTheInvariant :=
  fun _ _ hs h => (step_cases h).keeps_inv hs

/-- The values of rule R14 meet the constraints of rules R6 and R9 to R13. -/
theorem standardConfig_legal : Config.standard.Legal := by constructor <;> decide

/-- Settles O50: every legal configuration, and so the standard one, powers on in the invariant. -/
theorem resetMeetsTheInvariant : Obligations.ResetMeetsTheInvariant :=
  ⟨powerOn_inv standardConfig_legal _, fun _ q hc => powerOn_inv hc q⟩

end Sys2Proof.Machine

/-! What a step does to each element of the block: a launch as a function of the cleared state, the four kinds of
step, and the rules of the single elements that follow from them. -/

namespace Sys2Proof.Machine

/-! ## A launch is a function of the cleared state -/

/-- What the launch of `i` does once its common head `clear_results(); OPR <- op` is done (R110). -/
def launchBody (i : Instr) (u : State) : Host.Outcome State Fault Refusal :=
  match i with
  | .exec => launchExec u
  | .rxFrame => .next (launchRx u.rxlen.toNat u)
  | .rxStatus => .next (launchRx u.cfg.statusFrameLen u)
  | .rxVersion => .next (launchRx u.cfg.versionFrameLen u)
  | .rxCard => .next (finish .notImplemented u)
  | .flush => .next (finish .flushed (rxFlush u))
  | .reserved _ => .next (finish .illegalOp u)
  | _ => .next u

/-- In `IDLE` every code other than 0 runs the common head and then its own body (R110). -/
theorem exec_decodeCmd_idle {w : Word} (hw : w.toNat % 256 ≠ 0) {s : State} (hi : s.fsm = .idle) :
    exec (decodeCmd w) s = launchBody (decodeCmd w) (beginOp (lowByte w) s) := by
  have code : ∀ {n : Nat} {b : Byte}, (lowByte w).toNat = n → b.toNat = n → lowByte w = b :=
    fun h hb => BitVec.eq_of_toNat_eq (h.trans hb.symm)
  unfold decodeCmd
  split
  next h => exact absurd (lowByte_toNat w ▸ h) hw
  next h => exact code h (b := 0x01) rfl ▸ whenIdle_idle hi _
  next h => exact code h (b := 0x02) rfl ▸ whenIdle_idle hi _
  next h => exact code h (b := 0x03) rfl ▸ whenIdle_idle hi _
  next h => exact code h (b := 0x04) rfl ▸ whenIdle_idle hi _
  next h => exact code h (b := 0x05) rfl ▸ whenIdle_idle hi _
  next h => exact code h (b := 0x06) rfl ▸ whenIdle_idle hi _
  next => exact whenIdle_idle hi _

theorem launchRx_opr (len : Nat) (u : State) : (launchRx len u).opr = u.opr := by
  unfold launchRx
  split <;> rfl

theorem launchExec_opr {u t : State} (h : launchExec u = .next t) : t.opr = u.opr := by
  unfold launchExec at h
  split at h
  · cases h
    rfl
  · split at h
    · cases h
      rfl
    · cases h

/-- No body of a launch writes `OPR` (R24). -/
theorem launchBody_opr {i : Instr} {u t : State} (h : launchBody i u = .next t) : t.opr = u.opr := by
  unfold launchBody at h
  split at h
  next => exact launchExec_opr h
  next => cases h; exact launchRx_opr _ u
  next => cases h; exact launchRx_opr _ u
  next => cases h; exact launchRx_opr _ u
  all_goals cases h; rfl

/-- A launch leaves its code in `OPR` (R24). -/
theorem exec_decodeCmd_opr {w : Word} (hw : w.toNat % 256 ≠ 0) {s t : State} (hi : s.fsm = .idle)
    (h : exec (decodeCmd w) s = .next t) : t.opr = BitVec.ofNat 8 (w.toNat % 256) := by
  rw [exec_decodeCmd_idle hw hi] at h
  rw [launchBody_opr h, beginOp_opr, lowByte_eq]

/-- The write of a code with low byte 0 changes nothing (R181). -/
theorem exec_decodeCmd_nop {w : Word} (hw : w.toNat % 256 = 0) (s : State) :
    exec (decodeCmd w) s = .next s := by
  unfold decodeCmd
  rw [lowByte_toNat, hw]
  rfl

/-- The common head of a launch leaves nothing of what two states say differently of their results (R46). -/
theorem State.SameButResults.beginOp_eq {s t : State} (h : s.SameButResults t) (op : Byte) :
    beginOp op s = beginOp op t := by
  obtain ⟨h1, h2, h3, h4, h5, h6, h7, h8, h9, h10, h11, h12, h13, h14⟩ := h
  simp only [beginOp, clearResults, h1, h2, h3, h4, h5, h6, h7, h8, h9, h10, h11, h12, h13, h14]

/-- Settles O2: a launch runs its body on the cleared state, and clearing twice is clearing once. -/
theorem launchFirstClearsResults : Obligations.LaunchFirstClearsResults := by
  refine ⟨fun _ => rfl, fun w s hw hi => ?_⟩
  rw [exec_decodeCmd_idle hw hi, exec_decodeCmd_idle hw (s := clearResults s) hi, beginOp_clearResults]

/-- Settles O9: both states launch from the same cleared state. -/
theorem noResultSurvivesALaunch : Obligations.NoResultSurvivesALaunch := by
  intro w s t hw hi h
  rw [exec_decodeCmd_idle hw hi, exec_decodeCmd_idle hw (h.fsm ▸ hi), h.beginOp_eq]

/-! ## The kinds of step -/

/-- What a step without the reset input does, told by who writes the elements of the block: the surroundings
(the device, the tick source, a host that reads), the engine, a launch, or a host write to an argument. -/
inductive StepKind (s : State) : State → Prop
  /-- A tick, a byte from the device, or a step that changes no element of the block. -/
  | around (tm : Word) (q : List Byte) (ls : List HostLine) (rd : List Word) (ms : List Move) (k : Nat)
      (timer : s.sched.head? ≠ some .tick → tm = s.tmr)
      (queue : q = s.rxq ∨ ∃ b, q = s.rxq ++ [b] ∧
        (s.sched.head? = some (.dev b) ∨ ∃ bs, s.sched.head? = some (.devFrame (b :: bs)))) :
      StepKind s { s with tmr := tm, rxq := q, host := ls, hostRd := rd, sched := ms, free := k }
  /-- An answer of the transport, or a poll. -/
  | engine (m : Move) (ms : List Move) (t : State) (move : s.sched.head? = some m)
      (does : EngineStep m { s with sched := ms } t) : StepKind s t
  /-- The write of a code other than 0 to `CMD` in `IDLE` (R110). -/
  | launch (ms : List Move) (ls : List HostLine) (t : State) (launched : launches s)
      (does : Launch { s with sched := ms, host := ls } t) : StepKind s t
  /-- A host write in `IDLE` to another index (R63). -/
  | argument (ms : List Move) (ls : List HostLine) (l r : BitVec 8) (tm : Word) (m : Memory)
      (host : hostMoves s) (idle : s.fsm = .idle) :
      StepKind s
        { s with sched := ms, host := ls, txlen := l, rxlen := r, timeout := tm, txbuf := m }

/-- A step that changes no element of the block. -/
theorem StepKind.quiet (s : State) (ls : List HostLine) (rd : List Word) (ms : List Move) (k : Nat) :
    StepKind s { s with host := ls, hostRd := rd, sched := ms, free := k } :=
  .around s.tmr s.rxq ls rd ms k (fun _ => rfl) (.inl rfl)

/-- Every step is of one of the kinds, or the reset input. -/
theorem step_kind {s t : State} (h : step s = .next t) (hr : ¬ resetMoves s) : StepKind s t := by
  cases step_cases h with
  | stutter => exact .quiet s s.host s.hostRd s.sched s.free
  | device b ms hb =>
    refine .around s.tmr _ s.host s.hostRd ms s.free (fun _ => rfl) (.inr ⟨b, rfl, ?_⟩)
    rcases hb with hb | ⟨bs, ms', hb, -⟩
    · exact .inl (by rw [hb]; rfl)
    · exact .inr ⟨bs, by rw [hb]; rfl⟩
  | spent ms => exact .quiet s s.host s.hostRd ms s.free
  | tick ms hs =>
    exact .around _ s.rxq s.host s.hostRd ms s.free (fun hn => absurd (by rw [hs]; rfl) hn) (.inl rfl)
  | engine m ms ms' t hs _ does => exact .engine m ms' t (by rw [hs]; rfl) does
  | reset ms hs => exact absurd (by rw [resetMoves, hs]; rfl) hr
  | command ms ls a v t hs line cmd launch =>
    have ha : a = 0x000 := BitVec.eq_of_toNat_eq cmd
    subst ha
    by_cases hi : s.fsm = .idle
    · by_cases hv : v.toNat % 256 = 0
      · rw [exec_decodeCmd_nop hv] at launch
        cases launch
        exact .quiet s ls s.hostRd ms s.free
      · exact .launch ms ls t ⟨by rw [hostMoves, hs]; rfl, hi, v, ls, line, hv⟩ (launch_cases launch)
    · rw [(launch_cases launch).busy hi]
      exact .quiet s ls s.hostRd ms s.free
  | write ms ls a v hs =>
    obtain ⟨l, r, tm, m, heq, hbusy, -⟩ := regWrite_shape a v { s with sched := ms, host := ls }
    by_cases hi : s.fsm = .idle
    · rw [heq]
      exact .argument ms ls l r tm m (by rw [hostMoves, hs]; rfl) hi
    · rw [hbusy hi]
      exact .quiet s ls s.hostRd ms s.free
  | reads ms ls vs k => exact .quiet s ls vs ms k

/-! ## What the engine and a launch do to each element -/

/-- The engine takes no step in a move of the host. -/
theorem EngineStep.move_ne_host {m : Move} {u t : State} (h : EngineStep m u t) : m ≠ .host := by
  cases h with
  | none move => rcases move with rfl | rfl | rfl | rfl | rfl <;> simp
  | sentLast move => rcases move with rfl | rfl <;> simp
  | sentMore move => rcases move with rfl | rfl <;> simp
  | exchangeEnds code from_ => rcases from_ with ⟨-, rfl⟩ | ⟨-, rfl | rfl⟩ <;> simp
  | receptionEnds code from_ => rcases from_ with ⟨-, rfl⟩ | ⟨-, rfl | rfl⟩ <;> simp
  | ackByte b rest move => simp [move]
  | recvMore b rest move => simp [move]
  | recvLast b rest f move => simp [move]
  | replied move => simp [move]
  | rejected move => simp [move]

/-- The edges of rule R22 the engine takes; it does not leave `IDLE`. -/
theorem EngineStep.edge {m : Move} {u t : State} (h : EngineStep m u t) :
    Fsm.edge u.fsm t.fsm = true ∧ (u.fsm = .idle → t.fsm = .idle) := by
  cases h with
  | none => cases u.fsm <;> simp [Fsm.edge]
  | sentLast move fsm => simp [fsm, Fsm.edge]
  | sentMore move fsm => simp [fsm, Fsm.edge]
  | exchangeEnds code from_ => rcases from_ with ⟨fsm, -⟩ | ⟨fsm, -⟩ <;> simp [fsm, Fsm.edge]
  | ackByte b rest move fsm => simp [fsm, Fsm.edge]
  | recvMore b rest move fsm => simp [fsm, Fsm.edge]
  | recvLast b rest f move fsm => simp [fsm, Fsm.edge]
  | receptionEnds code from_ => rcases from_ with ⟨fsm, -⟩ | ⟨fsm, -⟩ <;> simp [fsm, Fsm.edge]
  | replied move fsm => simp [fsm, Fsm.edge]
  | rejected move fsm => simp [fsm, Fsm.edge]

/-- The engine takes the oldest byte of `rxq` and counts it, or leaves `rxq` (R68, R69). -/
theorem EngineStep.rxq {m : Move} {u t : State} (h : EngineStep m u t) :
    t.rxq = u.rxq ∨ m = .rxPoll ∧ ∃ b, u.rxq = b :: t.rxq ∧ t.rxcnt = u.rxcnt + 1 := by
  cases h with
  | ackByte b rest move fsm oldest => exact .inr ⟨move, b, oldest, rfl⟩
  | recvMore b rest move fsm oldest => exact .inr ⟨move, b, oldest, rfl⟩
  | recvLast b rest f move fsm oldest => exact .inr ⟨move, b, oldest, rfl⟩
  | _ => exact .inl rfl

/-- The engine appends to `wire_tx` the byte on offer and counts it, or leaves `wire_tx` (R43, R132). -/
theorem EngineStep.wireTx {m : Move} {u t : State} (h : EngineStep m u t) :
    t.wireTx = u.wireTx ∨
      ∃ b, (u.fsm = .sending ∨ u.fsm = .replying) ∧ offered u = some b ∧
        t.wireTx = u.wireTx ++ [b] ∧ t.txcnt = u.txcnt + 1 := by
  cases h with
  | sentLast move fsm => exact .inr ⟨_, .inl fsm, by simp only [offered, fsm], rfl, rfl⟩
  | sentMore move fsm => exact .inr ⟨_, .inl fsm, by simp only [offered, fsm], rfl, rfl⟩
  | replied move fsm sums =>
    exact .inr ⟨_, .inr fsm, by simp [offered, fsm, matched, sums, reply], rfl, rfl⟩
  | rejected move fsm sums =>
    exact .inr ⟨_, .inr fsm, by simp [offered, fsm, matched, sums, reply], rfl, rfl⟩
  | _ => exact .inl rfl

/-- `TMR` over a step that is no tick: loaded from `TIMEOUT` as a wait is entered, and kept otherwise (R41). -/
def TimerRule (s t : State) : Prop :=
  (t.fsm ≠ s.fsm ∧ (t.fsm = .awaitAck ∨ t.fsm = .receiving) ∧ t.tmr = s.timeout) ∨
    (¬ (t.fsm ≠ s.fsm ∧ (t.fsm = .awaitAck ∨ t.fsm = .receiving)) ∧ t.tmr = s.tmr)

/-- Of the engine's steps only the one that enters `AWAIT_ACK` loads the timer (R133). -/
theorem EngineStep.timer {m : Move} {u t : State} (h : EngineStep m u t) : TimerRule u t := by
  cases h with
  | none => exact .inr ⟨fun hn => hn.1 rfl, rfl⟩
  | sentLast move fsm => exact .inl ⟨by simp [fsm], .inl rfl, rfl⟩
  | sentMore => exact .inr ⟨fun hn => hn.1 rfl, rfl⟩
  | recvMore => exact .inr ⟨fun hn => hn.1 rfl, rfl⟩
  | _ => exact .inr ⟨by simp, rfl⟩

/-- Of the launches only the one that enters `RECEIVING` loads the timer (R151). -/
theorem Launch.timer {u t : State} (h : Launch u t) : TimerRule u t := by
  cases h with
  | ignored => exact .inr ⟨fun hn => hn.1 rfl, rfl⟩
  | receives op idle => exact .inl ⟨by simp [idle], .inr rfl, rfl⟩
  | _ => exact .inr ⟨by simp, rfl⟩

/-- A launch empties `rxq` for `EXEC` and `FLUSH` only, and otherwise leaves it (R131, R182). -/
theorem Launch.rxq {u t : State} (h : Launch u t) :
    t.rxq = u.rxq ∨ t.rxq = [] ∧ (t.opr = 0x01 ∨ t.opr = 0x06) := by
  cases h with
  | flushes => exact .inr ⟨rfl, .inr rfl⟩
  | sends =>
    by_cases hf : u.cfg.flushOnExec = true
    · exact .inr ⟨if_pos hf, .inl rfl⟩
    · exact .inl (if_neg hf)
  | _ => exact .inl rfl

/-- The edges of rule R22 a launch takes. -/
theorem Launch.edge {u t : State} (h : Launch u t) (hi : u.fsm = .idle) :
    Fsm.edge u.fsm t.fsm = true := by
  rw [hi]
  cases h with
  | ignored => rw [hi]; rfl
  | _ => rfl

theorem Fsm.edge_self (f : Fsm) : Fsm.edge f f = true := by cases f <;> rfl

/-! ## The obligations over every step -/

/-- Settles O52, by the kind of the step: only the engine and a launch move the sequencing. -/
theorem sequencingFollowsTheEdges : Obligations.SequencingFollowsTheEdges := by
  intro s t h hr
  cases step_kind h hr with
  | around => exact ⟨Fsm.edge_self _, fun hi hb => absurd hi hb, fun _ _ => rfl⟩
  | engine m ms t move does =>
    obtain ⟨hedge, hidle⟩ := does.edge
    refine ⟨hedge, fun hi hb => absurd (hidle hi) hb, fun hm => ?_⟩
    exact absurd (Option.some.inj (move.symm.trans hm)) does.move_ne_host
  | launch ms ls t launched does =>
    have ⟨_, hi, _⟩ := launched
    exact ⟨does.edge hi, fun _ _ => launched, fun _ hb => absurd hi hb⟩
  | argument => exact ⟨Fsm.edge_self _, fun hi hb => absurd hi hb, fun _ _ => rfl⟩

/-- Settles O54, by the kind of the step: only the engine writes `RXBUF`, only the host `TXBUF`. -/
theorem buffersHaveOneWriter : Obligations.BuffersHaveOneWriter := by
  intro s t h hr
  cases step_kind h hr with
  | around => exact ⟨fun _ _ => rfl, fun _ hne => absurd rfl hne⟩
  | engine m ms t move does =>
    obtain ⟨-, -, -, -, -, htx, -⟩ := does.frame
    refine ⟨fun _ _ => by rw [htx], fun a hne => ?_⟩
    rcases does.rxbuf with hrx | ⟨rfl, hf, b, hq, hrx⟩
    · exact absurd (by rw [hrx]) hne
    · have ha : a = s.idx.toNat := by
        by_contra hother
        exact hne (by rw [hrx]; exact Memory.read_write_other _ _ _ hother)
      exact ⟨hf, move, ha, by rw [hrx, ha, Memory.read_write_same]; exact hq.symm⟩
  | launch ms ls t launched does =>
    obtain ⟨-, -, -, -, htx, hrx, -⟩ := does.frame
    exact ⟨fun _ _ => by rw [htx], fun _ hne => absurd (by rw [hrx]) hne⟩
  | argument ms ls l r tm m host idle =>
    exact ⟨fun hn => absurd ⟨host, idle⟩ hn, fun _ hne => absurd rfl hne⟩

/-- Settles O55: the reset input keeps `rxq` by `resetPin` (log 7), every other step by its kind. -/
theorem receivedBytesAreFirstInFirstOut : Obligations.ReceivedBytesAreFirstInFirstOut := by
  intro s t h
  by_cases hr : resetMoves s
  · obtain ⟨ms, hs⟩ := List.head?_eq_some_iff.1 hr
    rw [step_reset hs] at h
    cases h
    exact .inl rfl
  cases step_kind h hr with
  | around tm q ls rd ms k timer queue =>
    rcases queue with hq | hq
    · exact .inl hq
    · exact .inr (.inl hq)
  | engine m ms t move does =>
    rcases does.rxq with hq | ⟨rfl, b, hq, hcnt⟩
    · exact .inl hq
    · exact .inr (.inr (.inl ⟨b, hq, move, hcnt⟩))
  | launch ms ls t launched does =>
    rcases does.rxq with hq | ⟨hq, hop⟩
    · exact .inl hq
    · obtain ⟨host, idle, -⟩ := launched
      exact .inr (.inr (.inr ⟨hq, host, idle, hop⟩))
  | argument => exact .inl rfl

/-- Settles O56, by the kind of the step: only the engine writes `wire_tx`. -/
theorem wireHistoryOnlyGrows : Obligations.WireHistoryOnlyGrows := by
  intro s t h hr
  cases step_kind h hr with
  | around => exact .inl rfl
  | engine m ms t move does => exact does.wireTx
  | launch ms ls t launched does =>
    obtain ⟨-, -, -, -, -, -, hw, -⟩ := does.frame
    exact .inl hw
  | argument => exact .inl rfl

/-- Settles O57, by the kind of the step: only a host write in `IDLE` writes an argument. -/
theorem argumentsChangeOnlyWhileIdle : Obligations.ArgumentsChangeOnlyWhileIdle := by
  intro s t h hr hn
  cases step_kind h hr with
  | around => exact ⟨rfl, rfl, rfl, rfl⟩
  | engine m ms t move does =>
    obtain ⟨-, -, hl, hrx, htm, htx, -⟩ := does.frame
    exact ⟨hl, hrx, htm, htx⟩
  | launch ms ls t launched =>
    obtain ⟨host, idle, -⟩ := launched
    exact absurd ⟨host, idle⟩ hn
  | argument ms ls l r tm m host idle => exact absurd ⟨host, idle⟩ hn

/-- Settles O58: the body of a launch keeps the code its head wrote, and no other kind of step writes `OPR`. -/
theorem operationCodeIsTheLastLaunch : Obligations.OperationCodeIsTheLastLaunch := by
  intro s t h hr
  refine ⟨fun v ls hm hi hl hv => ?_, fun hn => ?_⟩
  · obtain ⟨ms, hs⟩ := List.head?_eq_some_iff.1 hm
    rw [step_host_cmd hs hl rfl] at h
    exact exec_decodeCmd_opr hv (by exact hi) h
  · cases step_kind h hr with
    | around => rfl
    | engine m ms t move does =>
      obtain ⟨-, hopr, -⟩ := does.frame
      exact hopr
    | launch ms ls t launched => exact absurd launched hn
    | argument => rfl

/-- Settles O28: the tick by what it does, every other step by the timer rule of its kind. -/
theorem timerIsLoadedOrTicked : Obligations.TimerIsLoadedOrTicked := by
  refine ⟨fun s ms hs => ?_, fun s t h hr hnt => ?_⟩
  · rw [step_tick hs, tick_eq]
  · cases step_kind h hr with
    | around tm q ls rd ms k timer => exact .inr ⟨fun hne => hne.1 rfl, timer hnt⟩
    | engine m ms t move does => exact does.timer
    | launch ms ls t launched does => exact does.timer
    | argument => exact .inr ⟨fun hne => hne.1 rfl, rfl⟩

/-! ## The wait on a quiet line -/

/-- Ticks within the time a wait has left are taken from `TMR` one by one, and nothing else changes (R41). -/
theorem run_ticks (n k : Nat) (ms : List Move) {s : State}
    (hw : s.fsm = .awaitAck ∨ s.fsm = .receiving) (hn : n ≤ s.tmr.toNat)
    (hs : s.sched = List.replicate n .tick ++ ms) :
    Host.Core.run core (n + k) s =
      Host.Core.run core k { s with sched := ms, tmr := s.tmr - BitVec.ofNat 32 n } := by
  induction n generalizing s with
  | zero =>
    obtain rfl : s.sched = ms := hs
    simp
  | succ n ih =>
    have hpos : 0 < s.tmr.toNat := by omega
    have hdec : (s.tmr - 1).toNat = s.tmr.toNat - 1 := by bv_omega
    have hsum : s.tmr - 1 - BitVec.ofNat 32 n = s.tmr - BitVec.ofNat 32 (n + 1) := by
      bv_omega
    rw [show n + 1 + k = (n + k) + 1 by omega,
      run_succ_next _ (step_tick (ms := List.replicate n .tick ++ ms) hs), tick_eq,
      if_pos ⟨hw, hpos⟩]
    refine Eq.trans (ih (by exact hw) ?_ rfl) (by rw [← hsum])
    show n ≤ (s.tmr - 1).toNat
    omega

/-- One poll of a quiet line: the wait ends when its time is over and goes on before (R138, R154). -/
theorem poll_quiet {s : State} (hw : s.fsm = .awaitAck ∨ s.fsm = .receiving) (hq : s.rxq = []) :
    poll false s =
      if s.tmr = 0 then
        { s with
          result := .timedOut, done := true, idx := 0, fsm := .idle
          devstat := if s.fsm = .receiving ∧ s.opr = 0x03 then ⟨.error, true, 0⟩ else s.devstat }
      else s := by
  rcases hw with hf | hf
  · rw [poll_awaitAck_none hf hq, if_neg (c := s.fsm = .receiving ∧ _) (by simp [hf])]
    rfl
  · rw [poll_receiving_none hf hq, recvTimeout, finishRx_eq]
    simp only [hf, true_and]

/-- Settles O29, by the ticks and then the poll. -/
theorem quietWaitTimesOut : Obligations.QuietWaitTimesOut := by
  intro s n ms hw hq hn hs
  have hz : s.tmr - BitVec.ofNat 32 n = 0 ↔ n = s.tmr.toNat := by
    constructor <;> intro h <;> bv_omega
  rw [run_ticks n 1 (.rxPoll :: ms) hw hn hs, run_succ_next 0 (step_rxPoll rfl),
    poll_quiet (by exact hw) (by exact hq)]
  simp only [hz]
  split
  next h => rw [hz.2 h]; rfl
  next => rfl

/-! ## Class markers, flags and reset -/

/-- `TXBUF[0]` has a register in every legal configuration (R6, R61). -/
theorem regAt_payload0 {c : Config} (hc : c.Legal) : regAt c 0x100 = .txbuf 0 :=
  (regAt_txbuf_iff c 0x100 0).2 ⟨rfl, hc.maxPayload_pos⟩

/-- In `IDLE` the host's write to payload byte 0 stores the byte (R28, R63). -/
theorem regWrite_payload0_idle {s : State} (hc : s.cfg.Legal) (hi : s.fsm = .idle) (b : Byte) :
    regWrite 0x100 (b.setWidth 32) s = { s with txbuf := Memory.write s.txbuf 0 b } := by
  simp only [regWrite, regAt_payload0 hc, writeReg, if_pos hi, lowByte_setWidth]

/-- While an operation is in flight a host write changes nothing (R64). -/
theorem regWrite_busy {s : State} (hb : s.fsm ≠ .idle) (a : BitVec 10) (v : Word) :
    regWrite a v s = s := if_neg hb

/-- Settles O16: both rows are the host's write to payload byte 0. -/
theorem classMarkerIsWrittenToEntryZero : Obligations.ClassMarkerIsWrittenToEntryZero := by
  have row : ∀ p ∈ [(Instr.classShort, (0x06 : Byte)), (Instr.classParam, (0x07 : Byte))], ∀ s : State,
      exec p.1 s = .next (regWrite 0x100 (p.2.setWidth 32) s) := by
    intro p hp s
    rcases List.mem_pair.1 hp with rfl | rfl <;> rfl
  refine fun s hc => ⟨fun hi p hp => ?_, fun hb => ?_⟩
  · refine ⟨Memory.write s.txbuf 0 p.2, ?_, Memory.read_write_same _ _ _,
      fun a ha => Memory.read_write_other _ _ _ ha⟩
    rw [row p hp, regWrite_payload0_idle hc hi]
  · exact ⟨congrArg _ (regWrite_busy hb _ _), congrArg _ (regWrite_busy hb _ _)⟩

/-- Settles O34, by the result code. -/
theorem busyAndOkAreFunctions : Obligations.BusyAndOkAreFunctions := by
  refine fun s => ⟨by simp [busy], ?_⟩
  unfold okFlag
  cases s.result <;> simp [ResultCode.isOk]

theorem powerOn_tabled (c : Config) (q : List Byte) : (State.powerOn c q).Tabled c := by
  constructor <;> intros <;> rfl

/-- `STATUS` reads 0 where the table of rule R45 holds (R61). -/
theorem State.Tabled.statusWord_eq {c : Config} {t : State} (h : t.Tabled c) : statusWord t = 0 := by
  simp only [statusWord, okFlag, busy, h.opr, h.fsm, h.result, h.done]
  decide

/-- The reset input leaves the values of the table in every state (R230). -/
theorem resetPin_tabled (s : State) : (resetPin s).Tabled s.cfg := by
  constructor <;> intros <;> rfl

/-- Settles O49: the reset input and power-on leave the same table. -/
theorem resetLeavesTheTabledValues : Obligations.ResetLeavesTheTabledValues := by
  refine ⟨fun s ms hs => ⟨_, step_reset hs, ?_, rfl, rfl, ?_⟩, powerOn_tabled _ _, rfl, ?_⟩
  · exact resetPin_tabled { s with sched := ms }
  · exact (resetPin_tabled _).statusWord_eq
  · exact (powerOn_tabled _ _).statusWord_eq

end Sys2Proof.Machine

/-! The frames and the register space: what crosses the channels byte by byte, what a host write stores and a host
read returns, index by index, and the lines of a device command taken one after the other. -/

namespace Sys2Proof.Machine

/-! ## Bytes from the device and wire bytes off their turn -/

/-- Settles O10: the device's move queues the byte and leaves the schedule. -/
theorem deviceByteIsQueued : Obligations.DeviceByteIsQueued :=
  fun _ _ _ hs => step_dev hs

/-- Settles O11: each row, sent by the device, is `dev_send` of its own byte (R70). -/
theorem wireByteRowsFromTheDeviceAreQueued : Obligations.WireByteRowsFromTheDeviceAreQueued :=
  fun _ => ⟨rfl, rfl, rfl, rfl⟩

/-- The four wire-byte rows are the crossing of their byte (R92, R102). -/
theorem exec_wireByteRow {i : Crossing → Instr} {b : Byte}
    (h : (i, b) ∈ [(Instr.stx, (0x02 : Byte)), (Instr.etx, 0x03), (Instr.ack, 0x06), (Instr.nack, 0x15)])
    (x : Crossing) (s : State) : exec (i x) s = .next (crossByte x b s) := by
  simp only [List.mem_cons, List.not_mem_nil, or_false, Prod.mk.injEq] at h
  rcases h with ⟨rfl, rfl⟩ | ⟨rfl, rfl⟩ | ⟨rfl, rfl⟩ | ⟨rfl, rfl⟩ <;> rfl

/-- A byte that is not the one on offer does not move (R67). -/
theorem crossByte_accepted_off {b : Byte} {s : State} (h : offered s ≠ some b) :
    crossByte .accepted b s = s := if_neg h

/-- Settles O15: every row is the crossing of its byte, and off its turn a byte does not cross. -/
theorem wireByteOffItsTurnStays : Obligations.WireByteOffItsTurnStays := by
  refine fun i b s hi => ⟨fun h => ?_, fun h => ?_⟩
  · rw [exec_wireByteRow hi, crossByte_taken_off h]
  · rw [exec_wireByteRow hi, crossByte_accepted_off h]

/-! ## Frames -/

/-- Settles O18: a report frame has at least its trailer, and its bytes after the first are queued by the run. -/
theorem reportFrameIsQueued : Obligations.ReportFrameIsQueued := by
  intro s body
  obtain ⟨b, rest, hf⟩ : ∃ b rest, rxFrame body = b :: rest :=
    List.exists_cons_of_length_pos (by simp)
  refine ⟨b, rest, hf.symm, ?_, ?_⟩
  · show Host.Outcome.next (devSendRun (rxFrame body) s) = _
    rw [hf, devSendRun_cons]
    rfl
  · rw [run_devs rest s.sched rfl]
    simp only [List.append_assoc, List.singleton_append]

/-- The frame on offer is the frame over the payload, and the row of any other frame is off its turn (R94, R95). -/
theorem exec_commandFrame_off {s : State} (h : s.Inv) {p : List Byte}
    (hoff : s.fsm ≠ .sending ∨ s.idx ≠ 0 ∨ payload s ≠ p) : exec (.commandFrame p) s = .next s := by
  refine if_neg fun ⟨hf, hi, hp⟩ => ?_
  rw [offeredFrame_eq_txFrame (h.sending hf).csum] at hp
  rcases hoff with h | h | h
  · exact h hf
  · exact h hi
  · exact h (txFrame_injective hp)

/-- The row of the frame on offer moves its first byte and leaves the others as the next moves (R76, R133). -/
theorem exec_commandFrame_offered {s : State} (h : s.Inv) (hf : s.fsm = .sending) (hi : s.idx = 0) :
    exec (.commandFrame (payload s)) s =
      .next { s with
        sched := List.replicate (s.txlen.toNat + 3) .txAccept ++ s.sched
        wireTx := s.wireTx ++ [0x02], txcnt := 1, idx := 1 } := by
  have hs := h.sending hf
  have hcnt : s.txcnt = 0 := hs.txcnt.trans hi
  have hrem : remaining s - 1 = s.txlen.toNat + 3 := by simp [remaining, hi]
  have hmore : s.idx.toNat ≠ s.txlen.toNat + 3 := by simp [hi]
  refine (if_pos ⟨hf, hi, offeredFrame_eq_txFrame hs.csum⟩).trans ?_
  rw [acceptFrame_sending hf, hrem, sendAccepted_more (by exact hmore)]
  simp [logTx, txByte, hi, hcnt]

/-- `STX` and the bytes offered after it spell the frame over the payload (R95). -/
theorem stx_append_txBytes {s : State} (hc : s.csumTx = Config.csum16 (payload s)) :
    [0x02] ++ (List.range' 1 (s.txlen.toNat + 3)).map (txByte s) = txFrame (payload s) := by
  rw [← offeredFrame_eq_txFrame hc, offeredFrame, List.range_eq_range', List.range'_succ]
  rfl

/-- Settles O17: the row moves `STX`, and the run of offers after it the rest of the frame. -/
theorem commandFrameCrossesWhole : Obligations.CommandFrameCrossesWhole := by
  refine fun s p h => ⟨fun hf hi hp => ?_, exec_commandFrame_off h⟩
  subst hp
  have hs := h.sending hf
  have hlen : (payload s).length = s.txlen.toNat := Memory.bytes_length _ _ _
  have hfit : s.txlen.toNat ≤ 251 := hs.length.trans h.legal.maxPayload_le
  rw [hlen]
  refine ⟨exec_commandFrame_offered h hf hi, ?_⟩
  have hidx : (1 : BitVec 8).toNat + (s.txlen.toNat + 2) = s.txlen.toNat + 3 := by
    show 1 + _ = _
    omega
  have hcnt : (1 : BitVec 8) + BitVec.ofNat 8 (s.txlen.toNat + 3) = BitVec.ofNat 8 (s.txlen.toNat + 4) :=
    BitVec.eq_of_toNat_eq (by simp; omega)
  have hwire : s.wireTx ++ [0x02] ++ (List.range' 1 (s.txlen.toNat + 3)).map (txByte s) =
      s.wireTx ++ txFrame (payload s) := by
    rw [← stx_append_txBytes hs.csum, List.append_assoc]
  refine Eq.trans (run_accepts (s.txlen.toNat + 2) s.sched ?_ ?_ ?_ ?_) ?_
  · exact hf
  · exact hfit
  · exact hidx
  · rfl
  -- the two states agree but in `TXCNT` and `wire_tx`, which `congr` closes by `hcnt` and `hwire`
  congr 2

/-! ## What a host write stores -/

/-- `RegWrite` in `IDLE`, index by index, but for that of `CMD` (R61, R63, R65). -/
theorem regWrite_idle {s : State} (hi : s.fsm = .idle) {a : BitVec 10} (ha : a.toNat ≠ 0x000) (v : Word) :
    regWrite a v s =
      if a.toNat = 0x002 then { s with txlen := lowByte v }
      else if a.toNat = 0x003 then { s with rxlen := lowByte v }
      else if a.toNat = 0x004 then { s with timeout := v }
      else if 0x100 ≤ a.toNat ∧ a.toNat < 0x100 + s.cfg.maxPayload then
        { s with txbuf := Memory.write s.txbuf (a.toNat - 0x100) (lowByte v) }
      else s := by
  unfold regWrite regAt
  split
  case h_1 h => exact absurd h ha
  case h_13 =>
    rw [if_neg (show a.toNat ≠ 0x002 by omega), if_neg (show a.toNat ≠ 0x003 by omega),
      if_neg (show a.toNat ≠ 0x004 by omega)]
    split
    · exact if_pos hi
    · split <;> exact if_pos hi
  all_goals
    rename_i h
    simp [h, writeReg, hi]

/-- Settles O30: the launch at the index of `CMD`, `RegWrite` at every other. -/
theorem hostWriteStoresByIndex : Obligations.HostWriteStoresByIndex := by
  intro s t a v ls ms _ hs hh ht
  have hfsm : t.fsm = s.fsm := by rw [ht]
  have hcfg : t.cfg = s.cfg := by rw [ht]
  have htx : t.txbuf = s.txbuf := by rw [ht]
  by_cases ha : a.toNat = 0x000
  · rw [step_host_cmd hs hh ha, ← ht, if_pos ha]
    split
    next hb => exact exec_decodeCmd_busy v (hfsm ▸ hb)
    next => rfl
  · rw [step_host_wr hs hh ha, ← ht, if_neg ha]
    split
    next hb => rw [regWrite_busy (hfsm ▸ hb)]
    next hi =>
      rw [regWrite_idle (hfsm.trans (not_not.1 hi)) ha, lowByte_eq, hcfg, htx]
      simp only [apply_ite Host.Outcome.next]

/-! ## What a host read returns -/

/-- Settles O32: a read writes the host's own record and the draw counter. -/
theorem hostReadHasNoSideEffect : Obligations.HostReadHasNoSideEffect := by
  intro s a ls ms hs hh
  refine ⟨if unspecified s (regAt s.cfg a) then s.free + 1 else s.free, ?_, fun hd => ?_⟩
  · exact step_host_rd hs hh
  · simp [hd]

/-- Fields side by side, as a number (R15). -/
theorem toNat_append_eq {m n : Nat} (x : BitVec m) (y : BitVec n) :
    (x ++ y).toNat = x.toNat * 2 ^ n + y.toNat := by
  rw [BitVec.toNat_append, ← Nat.shiftLeft_add_eq_or_of_lt y.isLt, Nat.shiftLeft_eq]

theorem regRead_txbuf {s : State} (hc : s.cfg.Legal) {i : Nat} {b : Byte} (hi : i < s.cfg.maxPayload)
    (hb : Memory.read s.txbuf i = some b) :
    regRead s (BitVec.ofNat 10 (0x100 + i)) = b.setWidth 32 := by
  have hfit := hc.maxPayload_le
  have hr : regAt s.cfg (BitVec.ofNat 10 (0x100 + i)) = .txbuf i :=
    (regAt_txbuf_iff _ _ _).2 ⟨by simp; omega, hi⟩
  rw [regRead, hr, readReg, Memory.readD_of_read hb]

theorem regRead_rxbuf {s : State} (hc : s.cfg.Legal) {i : Nat} {b : Byte} (hcnt : i < s.rxcnt.toNat)
    (hi : i < s.cfg.rxBufSize) (hb : Memory.read s.rxbuf i = some b) :
    regRead s (BitVec.ofNat 10 (0x200 + i)) = b.setWidth 32 := by
  have htx := hc.maxPayload_le
  have hrx := hc.rxBufSize_le
  have ha : (BitVec.ofNat 10 (0x200 + i)).toNat = 0x200 + i := by simp; omega
  have hr : regAt s.cfg (BitVec.ofNat 10 (0x200 + i)) = .rxbuf i := by
    rw [regAt_high _ (by omega), if_neg (by omega), if_pos (by omega), ha, Nat.add_sub_cancel_left]
  rw [regRead, hr, readReg, if_pos hcnt, Memory.readD_of_read hb]

/-- Reserved indexes read 0 (R61, R62). -/
theorem regRead_reserved {s : State} (hc : s.cfg.Legal) {a : BitVec 10}
    (ha : (0x00C ≤ a.toNat ∧ a.toNat < 0x100) ∨
      (0x100 + s.cfg.maxPayload ≤ a.toNat ∧ a.toNat < 0x200) ∨ 0x200 + s.cfg.rxBufSize ≤ a.toNat) :
    regRead s a = 0 := by
  have htx := hc.maxPayload_le
  rw [regRead, regAt_high _ (by omega), if_neg (by omega), if_neg (by omega), readReg]

theorem statusWord_toNat (s : State) :
    (statusWord s).toNat =
      (busy s).toNat + 2 * s.done.toNat + 4 * (okFlag s).toNat + 16 * s.result.bits.toNat +
        256 * s.fsm.bits.toNat + 65536 * s.opr.toNat := by
  simp only [statusWord, toNat_append_eq, BitVec.toNat_ofBool, BitVec.toNat_ofNat]
  omega

theorem csumRxWord_toNat (s : State) :
    (csumRxWord s).toNat = 65536 * s.csumCalc.toNat + s.csumWire.toNat := by
  rw [csumRxWord, toNat_append_eq]
  omega

theorem countWord_toNat (s : State) : (countWord s).toNat = s.txcnt.toNat + 256 * s.rxcnt.toNat := by
  simp only [countWord, toNat_append_eq, BitVec.toNat_ofNat]
  omega

theorem ackWord_toNat (s : State) :
    (ackWord s).toNat = s.ackbyte.toNat + 256 * s.ackvalid.toNat := by
  simp only [ackWord, toNat_append_eq, BitVec.toNat_ofBool, BitVec.toNat_ofNat]
  omega

theorem devstatWord_toNat (d : DevStat) :
    (devstatWord d).toNat = d.code.bits.toNat + 8 * d.valid.toNat + 256 * d.raw.toNat := by
  simp only [devstatWord, toNat_append_eq, BitVec.toNat_ofBool, BitVec.toNat_ofNat]
  omega

theorem versionWord_toNat (v : Version) :
    (versionWord v).toNat =
      v.model.toNat + 256 * v.fw.toNat + 65536 * v.hw.toNat + 2 ^ 24 * v.modelKnown.toNat +
        2 ^ 25 * v.fwKnown.toNat + 2 ^ 26 * v.hwKnown.toNat + 2 ^ 31 * v.valid.toNat := by
  simp only [versionWord, toNat_append_eq, BitVec.toNat_ofBool, BitVec.toNat_ofNat]
  omega

/-- Settles O31, register by register of the map. -/
theorem registerReadPlacesFields : Obligations.RegisterReadPlacesFields := by
  refine fun s hc => ⟨rfl, statusWord_toNat s, BitVec.toNat_setWidth_of_le (by decide),
    BitVec.toNat_setWidth_of_le (by decide), rfl, BitVec.toNat_setWidth_of_le (by decide),
    csumRxWord_toNat s, countWord_toNat s, ackWord_toNat s, devstatWord_toNat _, versionWord_toNat _, rfl,
    fun i b hi hb => ?_, fun i b hcnt hi hb => ?_, fun a => regRead_reserved hc⟩
  · rw [regRead_txbuf hc hi hb, BitVec.toNat_setWidth_of_le (by decide)]
  · rw [regRead_rxbuf hc hcnt hi hb, BitVec.toNat_setWidth_of_le (by decide)]

/-! ## The lines of a device command -/

theorem templateBytes_cons (n : TemplateName) : ∃ b bs, templateBytes n = b :: bs := ⟨_, _, rfl⟩

/-- Every device command has opcode bytes (R192). -/
theorem catalogued_cons {l : PseudoLine} {t : List Byte} (h : Catalogued l t) : ∃ b bs, t = b :: bs := by
  cases l with
  | flowControl m =>
    rcases h with ⟨-, rfl⟩ | ⟨-, rfl⟩ <;> exact templateBytes_cons _
  | clockCount b bs | displayText text =>
    obtain rfl := h
    exact ⟨_, _, rfl⟩
  | _ =>
    obtain rfl := h
    exact templateBytes_cons _

/-- The host's writes of the bytes `t` to `TXBUF`, from entry `i` on (R190). -/
def payloadLines (i : Nat) (t : List Byte) : List HostLine :=
  t.mapIdx fun j b => .wr (BitVec.ofNat 10 (0x100 + (i + j))) (b.setWidth 32)

/-- The lines of a device command after its payload, for `n` opcode bytes (R190, R194). -/
def launchLines (n : Nat) : List HostLine :=
  [.wr 0x002 (BitVec.ofNat 32 (min n 255)), .wr 0x000 0x01, .wait]

/-- The first line of a device command writes its first byte, and the others follow (R190). -/
theorem commandLines_first {c : Config} (hc : c.Legal) (b : Byte) (bs : List Byte) :
    commandLines c (b :: bs) =
      .wr 0x100 (b.setWidth 32) ::
        (payloadLines 1 (bs.take (c.maxPayload - 1)) ++ launchLines (b :: bs).length) := by
  obtain ⟨k, hk⟩ : ∃ k, c.maxPayload = k + 1 := ⟨c.maxPayload - 1, by have := hc.maxPayload_pos; omega⟩
  simp only [commandLines, payloadLines, launchLines, hk, List.take_succ_cons, List.mapIdx_cons,
    List.cons_append, Nat.add_sub_cancel, Nat.add_comm 1]
  rfl

/-- The step of a device command is the host's write of its first byte (R190; log 11). -/
theorem exec_pseudo_first {l : PseudoLine} {s : State} (hc : s.cfg.Legal) {b : Byte} {bs : List Byte}
    (h : Catalogued l (b :: bs)) :
    exec (decodePseudo l) s =
      .next (regWrite 0x100 (b.setWidth 32)
        { s with host := (commandLines s.cfg (b :: bs)).tail ++ s.host }) := by
  rw [exec_pseudo h, commandLines_first hc]
  exact submit_eq (commandLines_first hc b bs)

/-- A run of one step is the step. -/
theorem run_one (s : State) : Host.Core.run core 1 s = step s := by
  have hstep : core.step s = step s := rfl
  simp only [Host.Core.run]
  rw [hstep]
  cases step s <;> rfl

/-- The host's write to `TXLEN` in `IDLE` stores the low 8 bits of the length (R25, R63). -/
theorem regWrite_txlen {s : State} (hi : s.fsm = .idle) (n : Nat) :
    regWrite 0x002 (BitVec.ofNat 32 n) s = { s with txlen := BitVec.ofNat 8 n } := by
  have hv : lowByte (BitVec.ofNat 32 n) = BitVec.ofNat 8 n :=
    BitVec.eq_of_toNat_eq (by simp [lowByte_toNat])
  rw [← hv]
  exact (regWrite_idle hi (by decide) _).trans (if_pos rfl)

/-- In `IDLE` the line `EXEC` launches it (R110, R130). -/
theorem step_host_exec {s : State} {ls : List HostLine} {ms : List Move} (hs : s.sched = .host :: ms)
    (hh : s.host = .wr 0x000 0x01 :: ls) (hi : s.fsm = .idle) :
    step s = launchExec (beginOp 0x01 { s with sched := ms, host := ls }) :=
  (step_host_cmd hs hh rfl).trans (whenIdle_idle (by exact hi) _)

/-- In `IDLE` the lines of a device command after its payload, taken with nothing between, launch `EXEC` over what
`TXBUF` holds and leave the host in `WAIT` (R190). -/
theorem run_launchLines (n : Nat) (ls : List HostLine) (ms : List Move) {s : State} (hi : s.fsm = .idle) :
    Host.Core.run core 2
        { s with sched := List.replicate 2 .host ++ ms, host := launchLines n ++ ls } =
      launchExec (beginOp 0x01
        { s with sched := ms, host := .wait :: ls, txlen := BitVec.ofNat 8 (min n 255) }) := by
  refine (run_succ_next 1 (step_host_wr (ms := .host :: ms) rfl rfl (by decide))).trans ?_
  rw [regWrite_txlen (by exact hi), run_one]
  exact step_host_exec rfl rfl hi

/-- In `IDLE` the lines of a device command from entry 1 on, taken with nothing between, fill `TXBUF` and
launch `EXEC` (R190). -/
theorem run_commandLines (t : List Byte) (n : Nat) (ls : List HostLine) (ms : List Move) {s : State}
    (hc : s.cfg.Legal) (hi : s.fsm = .idle) (ht : 1 + t.length ≤ s.cfg.maxPayload) :
    Host.Core.run core (t.length + 2)
        { s with
          sched := List.replicate (t.length + 2) .host ++ ms
          host := payloadLines 1 t ++ (launchLines n ++ ls) } =
      launchExec (beginOp 0x01
        { s with
          sched := ms, host := .wait :: ls, txlen := BitVec.ofNat 8 (min n 255)
          txbuf := Memory.fill s.cfg.maxPayload s.txbuf 1 t }) :=
  (run_writes (launchLines n ++ ls) ms t 1 2 hi hc.maxPayload_le ht).trans
    (run_launchLines n ls ms (s := { s with txbuf := Memory.fill s.cfg.maxPayload s.txbuf 1 t }) hi)

/-- In `IDLE` the lines of a device command after its first, taken with nothing between, write the other bytes that
have an entry and launch `EXEC` (R190). -/
theorem run_commandTail {s : State} (hc : s.cfg.Legal) (hi : s.fsm = .idle) (b : Byte) (bs : List Byte)
    (ls : List HostLine) (ms : List Move) {k : Nat} (hk : k = min (b :: bs).length s.cfg.maxPayload) :
    Host.Core.run core (k + 1)
        { s with
          sched := List.replicate (k + 1) .host ++ ms
          host := (commandLines s.cfg (b :: bs)).tail ++ ls
          txbuf := Memory.write s.txbuf 0 b } =
      launchExec (beginOp 0x01
        { s with
          sched := ms, host := .wait :: ls, txlen := BitVec.ofNat 8 (min (b :: bs).length 255)
          txbuf := Memory.fill s.cfg.maxPayload s.txbuf 0 ((b :: bs).take s.cfg.maxPayload) }) := by
  have hpos : 0 < s.cfg.maxPayload := hc.maxPayload_pos
  have hcount : k + 1 = (bs.take (s.cfg.maxPayload - 1)).length + 2 := by
    simp only [List.length_cons, List.length_take] at hk ⊢
    omega
  have hspan : 1 + (bs.take (s.cfg.maxPayload - 1)).length ≤ s.cfg.maxPayload := by
    simp only [List.length_take]
    omega
  have hfill : Memory.fill s.cfg.maxPayload s.txbuf 0 ((b :: bs).take s.cfg.maxPayload) =
      Memory.fill s.cfg.maxPayload (Memory.write s.txbuf 0 b) 1 (bs.take (s.cfg.maxPayload - 1)) := by
    rw [List.take_cons hpos, Memory.fill, if_pos hpos]
  rw [commandLines_first hc, List.tail_cons, List.append_assoc, hcount, hfill]
  exact run_commandLines _ _ ls ms (s := { s with txbuf := Memory.write s.txbuf 0 b }) hc hi hspan

/-- What `TXBUF` reads as once the bytes of `t` that have an entry are written (R190). -/
theorem Memory.read_fill_take (limit : Nat) (t : List Byte) (m : Memory) (a : Nat) :
    Memory.read (Memory.fill limit m 0 (t.take limit)) a =
      if a < t.length ∧ a < limit then t[a]? else Memory.read m a := by
  rw [Memory.read_fill]
  by_cases ha : a < limit <;> simp [ha]

/-- The launch of `EXEC` over a payload `t` that is written and fits (R131). -/
theorem launchExec_payload {s : State} {t : List Byte} (hlen : t.length = s.txlen.toNat)
    (hfit : t.length ≤ s.cfg.maxPayload)
    (hread : ∀ i (h : i < t.length), Memory.read s.txbuf i = some t[i]) :
    launchExec s =
      .next { s with
        csumTx := Config.csum16 t
        rxq := if s.cfg.flushOnExec = true then [] else s.rxq
        idx := 0, fsm := .sending } := by
  have hdef : Memory.defined s.txbuf s.txlen.toNat = true :=
    (Memory.defined_iff _ _).2 fun i hi => ⟨_, hread i (hlen ▸ hi)⟩
  rw [launchExec_ready (hlen ▸ hfit) hdef, payload_of_read hlen hread]

/-- Settles O35: the first line is the write of the first byte, the others run to the launch of `EXEC`, and that is
by the length of the opcode bytes. -/
theorem deviceCommandLaunchesItsTemplate : Obligations.DeviceCommandLaunchesItsTemplate := by
  intro s l t hc h
  obtain ⟨b, bs, rfl⟩ := catalogued_cons h
  have hmax := hc.maxPayload_le
  rw [exec_pseudo_first hc h]
  refine ⟨fun hi => ?_, fun hb => congrArg _ (regWrite_busy (by exact hb) _ _)⟩
  refine ⟨b, _, Memory.fill s.cfg.maxPayload s.txbuf 0 ((b :: bs).take s.cfg.maxPayload), rfl, rfl,
    congrArg _ (regWrite_payload0_idle (by exact hc) (by exact hi) b), Memory.read_fill_take _ _ _,
    fun ms => ⟨fun hfit => ?_, fun hlong => ?_⟩⟩
  · have hmin : min (b :: bs).length 255 = (b :: bs).length := by omega
    have run := run_commandTail hc hi b bs s.host ms (Nat.min_eq_left hfit).symm
    rw [hmin] at run
    refine run.trans (launchExec_payload (t := b :: bs) ?_ hfit fun i hlt => ?_)
    · show (b :: bs).length = (BitVec.ofNat 8 (b :: bs).length).toNat
      rw [BitVec.toNat_ofNat]
      omega
    · refine (Memory.read_fill_take s.cfg.maxPayload (b :: bs) s.txbuf i).trans ?_
      rw [if_pos ⟨hlt, hlt.trans_le hfit⟩, List.getElem?_eq_getElem hlt]
  · have run := run_commandTail hc hi b bs s.host ms (Nat.min_eq_right hlong.le).symm
    refine run.trans (launchExec_tooLong ?_)
    show s.cfg.maxPayload < (BitVec.ofNat 8 (min (b :: bs).length 255)).toNat
    rw [BitVec.toNat_ofNat]
    omega

/-! ## Results and the step -/

/-- The engine takes no step in `IDLE` (R21). -/
theorem EngineStep.eq_of_idle {m : Move} {u t : State} (h : EngineStep m u t) (hi : u.fsm = .idle) :
    t = u := by
  cases h with
  | none => rfl
  | exchangeEnds _ from_ => rcases from_ with ⟨fsm, -⟩ | ⟨fsm, -⟩ <;> cases hi.symm.trans fsm
  | receptionEnds _ from_ => rcases from_ with ⟨fsm, -⟩ | ⟨fsm, -⟩ <;> cases hi.symm.trans fsm
  | sentLast _ fsm | sentMore _ fsm | ackByte _ _ _ fsm | recvMore _ _ _ fsm | recvLast _ _ _ _ fsm
  | replied _ fsm | rejected _ fsm => cases hi.symm.trans fsm

/-- Settles O59: a block that is done is idle, and in `IDLE` only a launch writes a result register. -/
theorem resultsHoldUntilTheNextLaunch : Obligations.ResultsHoldUntilTheNextLaunch := by
  intro s t hinv hd h hr hn
  have hi : s.fsm = .idle := by
    by_contra hb
    simp [hinv.results.busy_not_done hb] at hd
  have hb : busy s = false := by simp [busy, hi]
  cases step_kind h hr with
  | around | argument => exact ⟨hb, hi, hd, rfl, rfl, rfl, rfl, rfl, rfl, rfl, rfl, rfl, rfl, rfl⟩
  | engine m ms t move does =>
    rw [does.eq_of_idle hi]
    exact ⟨hb, hi, hd, rfl, rfl, rfl, rfl, rfl, rfl, rfl, rfl, rfl, rfl, rfl⟩
  | launch ms ls t launched => exact absurd launched hn

theorem advance_cfg (s : State) : (advance s).cfg = s.cfg := by
  unfold advance
  split <;> rfl

/-- Settles O47: an encoding that decodes is run past its move, under the same configuration. -/
theorem stepRunsTheDecodedInstruction : Obligations.StepRunsTheDecodedInstruction := by
  intro s e i hf hd
  simp only [step, hf, runEncoded, advance_cfg, hd]

end Sys2Proof.Machine

/-! The encodings: the operation map and the round trip of the decoder and the encoder, the spans of the checksum,
the classification of a byte, the wire-byte rows on their turn, what a host line or a table word becomes at the next
step, and the reception of a pending frame. -/

namespace Sys2Proof.Machine

/-! ## The round trip -/

/-- A code the table does not name is reserved (R112). -/
theorem decodeCmd_reserved {w : Word} (h : 7 ≤ (lowByte w).toNat) :
    decodeCmd w = .reserved (lowByte w) := by
  unfold decodeCmd
  split
  case h_8 => rfl
  all_goals omega

/-- Settles O38: format by format, with the frames through what their decoders accept and the reserved codes by
their range; each other row is one fixed encoding. -/
theorem decodeOfEncodeIsTheInstruction : Obligations.DecodeOfEncodeIsTheInstruction := by
  intro c i hi
  cases i with
  | reserved op =>
    have hop : 7 ≤ op.toNat := of_decide_eq_true hi
    have hlow : lowByte (op.setWidth 32) = op := lowByte_setWidth op
    exact congrArg Except.ok ((decodeCmd_reserved (hlow.symm ▸ hop)).trans (congrArg _ hlow))
  | commandFrame p => exact (decodeTxFrame_iff c _ _).2 ⟨p, rfl, rfl, of_decide_eq_true hi⟩
  | reportFrame body => exact (decodeRxFrame_iff c _ _).2 ⟨body, rfl, rfl, of_decide_eq_true hi⟩
  | _ => rfl

/-- What is read from a `CMD` value is well formed, and its encoding is the low byte alone (R110). -/
theorem decodeCmd_recovered (c : Config) (w : Word) :
    (decodeCmd w).wellFormed c = true ∧
      encode (decodeCmd w) = .cmd (BitVec.ofNat 32 (lowByte w).toNat) := by
  unfold decodeCmd
  split
  case h_8 =>
    have hcode : 7 ≤ (lowByte w).toNat := by
      simp only [imp_false] at *
      omega
    exact ⟨decide_eq_true hcode, congrArg _ (BitVec.ofNat_toNat 32 _).symm⟩
  all_goals
    rename_i h
    rw [h]
    exact ⟨rfl, rfl⟩

theorem and_ff_eq_lowByte (w : Word) : w &&& 0xFF = BitVec.ofNat 32 (lowByte w).toNat := by
  have hmask : w.toNat &&& 0xFF = w.toNat % 256 := Nat.and_two_pow_sub_one_eq_mod w.toNat 8
  refine BitVec.eq_of_toNat_eq ?_
  rw [BitVec.toNat_and, BitVec.toNat_ofNat, lowByte_toNat]
  exact hmask.trans (by omega)

theorem decodePseudo_wellFormed (c : Config) (l : PseudoLine) : (decodePseudo l).wellFormed c = true := by
  cases l <;> rfl

theorem encode_decodePseudo (l : PseudoLine) : encode (decodePseudo l) = .pseudo l := by
  cases l <;> rfl

/-- Settles O39, format by format, through what each decoder accepts. -/
theorem decodedEncodingIsRecovered : Obligations.DecodedEncodingIsRecovered := by
  intro c e i h
  cases e with
  | cmd w =>
    cases h
    obtain ⟨hwf, henc⟩ := decodeCmd_recovered c w
    exact ⟨hwf, henc.trans (congrArg _ (and_ff_eq_lowByte w).symm)⟩
  | wireByte x b =>
    rcases (decodeWireByte_iff x b i).1 h with ⟨rfl, rfl⟩ | ⟨rfl, rfl⟩ | ⟨rfl, rfl⟩ | ⟨rfl, rfl⟩ <;>
      exact ⟨rfl, rfl⟩
  | payloadByte0 b =>
    rcases (decodePayloadByte0_iff b i).1 h with ⟨rfl, rfl⟩ | ⟨rfl, rfl⟩ <;> exact ⟨rfl, rfl⟩
  | txFrame f =>
    obtain ⟨p, rfl, rfl, hp⟩ := (decodeTxFrame_iff c f i).1 h
    exact ⟨decide_eq_true hp, rfl⟩
  | rxFrame f =>
    obtain ⟨body, rfl, rfl, hb⟩ := (decodeRxFrame_iff c f i).1 h
    exact ⟨decide_eq_true hb, rfl⟩
  | pseudo l =>
    cases h
    exact ⟨decodePseudo_wellFormed c l, encode_decodePseudo l⟩

/-- Settles O40, code by code: the map reads the low byte alone. -/
theorem operationMapIgnoresHighBits : Obligations.OperationMapIgnoresHighBits := by
  intro c w
  refine congrArg Except.ok ?_
  unfold decodeCmd
  rw [lowByte_toNat, lowByte_eq]
  split
  case h_8 h0 h1 h2 h3 h4 h5 h6 =>
    rw [if_neg h0, if_neg h1, if_neg h2, if_neg h3, if_neg h4, if_neg h5, if_neg h6]
  all_goals
    rename_i h
    rw [h]
    rfl

/-- Settles O41: each word is read by the row it was written out from. -/
theorem writtenOutWordsDecode : Obligations.WrittenOutWordsDecode :=
  ⟨rfl, rfl, rfl, rfl, rfl, rfl⟩

/-! ## The spans of the checksum -/

/-- Settles O42: the offered bytes are the frame, and byte `i` of them is `tx_byte(i)`. -/
theorem offeredBytesSpellTheFrame : Obligations.OfferedBytesSpellTheFrame := by
  rintro s p rfl hc
  have hframe : offeredFrame s = txFrame (payload s) := offeredFrame_eq_txFrame hc
  have hlen : (payload s).length = s.txlen.toNat := Memory.bytes_length _ _ _
  refine ⟨hframe, rfl, fun i hi => ?_⟩
  rw [hlen] at hi
  rw [← hframe, offeredFrame, List.getElem?_map, List.getElem?_range hi, Option.map_some]

/-- The checksum a trailer spells, as a number (R73). -/
theorem eq_be16_iff (c : Half) (hi lo : Byte) : c = be16 hi lo ↔ c.toNat = hi.toNat * 256 + lo.toNat := by
  rw [← BitVec.toNat_inj, be16_toNat]

/-- `verify` of a frame whose trailer is that of `c`, whatever `c` was computed over (R97). -/
theorem verify_append_trailer (body : List Byte) (c : Half) :
    verify (body ++ trailer c) = (decide (Config.csum16 body = c), Config.csum16 body, c) := by
  rw [trailer, verify_append, be16_hi8_lo8]

/-- Settles O43: the two last bytes are taken as the trailer, high byte first. -/
theorem verifySpansAllButTheTrailer : Obligations.VerifySpansAllButTheTrailer := by
  refine ⟨fun body hi lo => ?_, fun body => ?_⟩
  · rw [verify_append]
    exact congrArg (·, _, _) (decide_eq_decide.2 (eq_be16_iff _ hi lo))
  · rw [rxFrame, verify_append_trailer]
    simp

/-- Settles O44: `verify` sums the delimiters of a command frame too. -/
theorem frameVerifiesOnlyIfSpansAgree : Obligations.FrameVerifiesOnlyIfSpansAgree := by
  intro p
  rw [txFrame, verify_append_trailer]
  exact decide_eq_true_iff

/-! ## The classification of a byte -/

/-- Settles O45: only 0x06 and 0x15 are told apart from the other bytes. -/
theorem classifyAndReplyBytes : Obligations.ClassifyAndReplyBytes :=
  ⟨rfl, rfl, fun _ hack hnack => (if_neg hack).trans (if_neg hnack), rfl, rfl⟩

/-- A byte with none of the bits of a union of masks has none of the bits of either. -/
theorem and_or_eq_zero_iff (b x y : Byte) : b &&& (x ||| y) = 0 ↔ b &&& x = 0 ∧ b &&& y = 0 := by
  rw [BitVec.and_or_distrib_left]
  exact BitVec.or_eq_zero_iff

/-- Settles O46: the tests in their order, each after the failure of the ones before it. -/
theorem statusDecodeTakesFirstNamedBit : Obligations.StatusDecodeTakesFirstNamedBit := by
  intro c b
  -- `past h` goes on to the tests that follow one whose bit is clear
  have past : ∀ {m : Byte} {x y z : StatusCode}, b &&& m = 0 → y = z →
      (if b &&& m ≠ 0 then x else y) = z := fun h e => (if_neg (not_not_intro h)).trans e
  refine ⟨fun h1 => if_pos h1, fun h1 h2 => past h1 (if_pos h2),
    fun h1 h2 h3 => past h1 (past h2 (if_pos h3)),
    fun h1 h2 h3 h4 => past h1 (past h2 (past h3 (if_pos h4))), fun h => ?_, decodeStatus_ne_error c b⟩
  simp only [and_or_eq_zero_iff] at h
  obtain ⟨⟨⟨h1, h2⟩, h3⟩, h4⟩ := h
  exact past h1 (past h2 (past h3 (past h4 rfl)))

/-! ## The wire-byte rows on their turn -/

section
variable {i : Crossing → Instr} {b : Byte}
  (hrow : (i, b) ∈ [(Instr.stx, (0x02 : Byte)), (Instr.etx, 0x03), (Instr.ack, 0x06), (Instr.nack, 0x15)])
include hrow

/-- A wire-byte row that is taken in `AWAIT_ACK` is the step *ack-byte* (R136). -/
theorem exec_taken_awaitAck {s : State} {rest : List Byte} (hf : s.fsm = .awaitAck) (hq : s.rxq = b :: rest) :
    exec (i .taken) s = .next (ackByte b rest s) := by
  rw [exec_wireByteRow hrow, crossByte_taken (by rw [hq]; rfl), poll_awaitAck_byte hf hq]

/-- A wire-byte row that is accepted in `SENDING` before the last offset is the step *send-accepted* (R133). -/
theorem exec_accepted_sending {s : State} (hf : s.fsm = .sending) (hb : txByte s s.idx.toNat = b)
    (more : s.idx.toNat ≠ s.txlen.toNat + 3) :
    exec (i .accepted) s = .next { logTx b s with idx := s.idx + 1 } := by
  have hoff : offered s = some b := by simp only [offered, hf, hb]
  rw [exec_wireByteRow hrow, crossByte_accepted hoff, offerAccepted_sending hf, sendAccepted_more more, hb]

/-- A wire-byte row that is accepted in `REPLYING` is the step *reply-accepted* (R157). -/
theorem exec_accepted_replying {s : State} (hf : s.fsm = .replying) (hb : reply (matched s) = b) :
    exec (i .accepted) s = .next (replyAccepted s) := by
  have hoff : offered s = some b := by simp only [offered, hf, hb]
  rw [exec_wireByteRow hrow, crossByte_accepted hoff, offerAccepted_replying hf]

end

/-- Settles O12: each row is the step *ack-byte* with its own byte, and ends as the byte is classified. -/
theorem acknowledgmentRowsEndTheExchange : Obligations.AcknowledgmentRowsEndTheExchange :=
  fun _ _ hf => ⟨exec_taken_awaitAck (by simp) hf, exec_taken_awaitAck (by simp) hf,
    exec_taken_awaitAck (by simp) hf, exec_taken_awaitAck (by simp) hf⟩

theorem txByte_zero (s : State) : txByte s 0 = 0x02 := rfl

/-- `ETX` stands behind the payload (R95). -/
theorem txByte_etx (s : State) : txByte s (s.txlen.toNat + 1) = 0x03 := by
  simp [txByte]

/-- Settles O13: the delimiters are the bytes on offer at their offsets. -/
theorem delimiterRowsAreSent : Obligations.DelimiterRowsAreSent := by
  refine fun s hf _ => ⟨fun h0 => ?_, fun h1 => ?_⟩
  · have hidx : s.idx + 1 = 1 := by
      rw [show s.idx = 0 from BitVec.eq_of_toNat_eq h0]
      rfl
    rw [exec_accepted_sending (b := 0x02) (by simp) hf (by rw [h0, txByte_zero]) (by omega), hidx]
    rfl
  · rw [exec_accepted_sending (b := 0x03) (by simp) hf (by rw [h1, txByte_etx]) (by omega)]
    rfl

/-- Settles O14: the reply tells whether the frame verified, and `RX_FRAME` decodes nothing. -/
theorem replyRowsEndTheReception : Obligations.ReplyRowsEndTheReception := by
  refine fun s hf hop => ⟨fun hm => ?_, fun hm => ?_⟩
  · rw [exec_accepted_replying (b := 0x06) (by simp) hf (by simp [matched, hm, reply]),
      replyAccepted_match hm, decodeReport_frame (by exact hop)]
    rfl
  · rw [exec_accepted_replying (b := 0x15) (by simp) hf (by simp [matched, hm, reply]),
      replyAccepted_mismatch hm, finishRx, if_neg (by simp [hop])]
    rfl

/-! ## Host lines and table words -/

/-- A read of `STATUS` records its value and draws nothing (R61, R62). -/
theorem hostRead_status (s : State) :
    hostRead 0x001 s = { s with hostRd := s.hostRd ++ [statusWord s] } := rfl

/-- Settles O33: one read of `STATUS`, which the host's own program does not enter. -/
theorem waitRepeatsUntilDone : Obligations.WaitRepeatsUntilDone := by
  intro s ls ms hs hh
  rw [step_host_wait hs hh]
  by_cases hd : s.done = true
  · rw [if_pos hd, if_pos hd, hostRead_status]
    rfl
  · rw [if_neg hd, if_neg hd, hostRead_status, ← hh]
    rfl

/-- The lines of a device command whose opcode bytes fit (R190). -/
theorem commandLines_fit {c : Config} (hc : c.Legal) {t : List Byte} (ht : t.length ≤ c.maxPayload) :
    commandLines c t =
      (t.mapIdx fun i b => .wr (BitVec.ofNat 10 (0x100 + i)) (b.setWidth 32)) ++
        [.wr 0x002 (BitVec.ofNat 32 t.length), .wr 0x000 0x01, .wait] := by
  have hmax := hc.maxPayload_le
  rw [commandLines, List.take_of_length_le ht, Nat.min_eq_left (by omega)]

/-- Settles O37: both steps are the write of the first line, with the others left to the host. -/
theorem deviceCommandIsItsLines : Obligations.DeviceCommandIsItsLines := by
  intro s l t ls ms hc ht hl
  obtain ⟨a, v, rest, ha, hlines⟩ := commandLines_cons s.cfg t
  have hwritten := congrArg (· ++ ls) ((commandLines_fit hc ht).symm.trans hlines)
  rw [step_host_pseudo rfl rfl, exec_pseudo hl, submit_eq (by exact hlines)]
  refine (step_host_wr (s := { s with sched := .host :: ms, host := _ }) rfl ?_ ha).symm
  simpa using hwritten

/-- The three formats a table word is read in (log 15). -/
theorem tableEncoded_cases (nbits w : Nat) :
    (∃ v, tableEncoded nbits w = .cmd v) ∨ (∃ b, tableEncoded nbits w = .wireByte .sent b) ∨
      ∃ b, tableEncoded nbits w = .payloadByte0 b := by
  unfold tableEncoded
  simp only
  split
  · exact .inl ⟨_, rfl⟩
  · split
    · exact .inr (.inl ⟨_, rfl⟩)
    · split
      · exact .inr (.inr ⟨_, rfl⟩)
      · exact .inl ⟨_, rfl⟩

/-- The next move of a state with a table word placed carries that word, and past it stands the state itself
(log 2). -/
theorem fetch_withFetchWord {s : State} (hc : s.cfg.Legal) (nbits w : Nat) :
    fetch (s.withFetchWord nbits w) = some (tableEncoded nbits w) ∧
      advance (s.withFetchWord nbits w) = s := by
  unfold State.withFetchWord
  rcases tableEncoded_cases nbits w with ⟨v, h⟩ | ⟨b, h⟩ | ⟨b, h⟩ <;> rw [h]
  · exact ⟨rfl, rfl⟩
  · exact ⟨rfl, rfl⟩
  · refine ⟨?_, rfl⟩
    show fetchLine s.cfg (.wr 0x100 (b.setWidth 32)) = _
    rw [fetchLine, regAt_payload0 hc]
    exact congrArg (some ∘ Encoded.payloadByte0) (lowByte_setWidth b)

theorem decodeTableWord_some {nbits w : Nat} {i : Instr} (h : decodeTableWord nbits w = some i) :
    decode Config.standard (tableEncoded nbits w) = .ok i := by
  unfold decodeTableWord at h
  split at h
  · cases h
  · split at h
    · cases h
      assumption
    · cases h

/-- Settles O48: the word placed is the one fetched, and the step runs what it decodes to. -/
theorem placedWordIsRunNext : Obligations.PlacedWordIsRunNext := by
  intro s nbits w i hcfg h
  obtain ⟨hfetch, hpast⟩ := fetch_withFetchWord (hcfg ▸ standardConfig_legal) nbits w
  have hplaced : (s.withFetchWord nbits w).cfg = Config.standard := by
    rw [← advance_cfg, hpast, hcfg]
  rw [stepRunsTheDecodedInstruction _ _ i hfetch (hplaced ▸ decodeTableWord_some h), hpast]

/-! ## The reception of a pending frame -/

theorem Memory.fill_append (limit : Nat) (t u : List Byte) (m : Memory) (i : Nat) :
    Memory.fill limit m i (t ++ u) = Memory.fill limit (Memory.fill limit m i t) (i + t.length) u := by
  induction t generalizing m i with
  | nil => rfl
  | cons b t ih =>
    rw [List.cons_append, Memory.fill, Memory.fill, ih, List.length_cons, Nat.add_assoc i 1, Nat.add_comm 1]

theorem Memory.fill_singleton {limit i : Nat} (h : i < limit) (m : Memory) (b : Byte) :
    Memory.fill limit m i [b] = Memory.write m i b := if_pos h

/-- Pending bytes that do not complete the frame, each taken by a poll with nothing between, are stored from the
offset on (R153). -/
theorem run_polls (g q : List Byte) (ms : List Move) (k : Nat) {s : State} (hf : s.fsm = .receiving)
    (hlen : frameLen s ≤ 255) (hg : s.idx.toNat + g.length < frameLen s) (hq : s.rxq = g ++ q)
    (hs : s.sched = List.replicate g.length .rxPoll ++ ms) :
    Host.Core.run core (g.length + k) s =
      Host.Core.run core k
        { s with
          sched := ms, rxq := q
          rxbuf := Memory.fill (frameLen s) s.rxbuf s.idx.toNat g
          rxcnt := s.rxcnt + BitVec.ofNat 8 g.length, idx := s.idx + BitVec.ofNat 8 g.length } := by
  induction g generalizing s with
  | nil =>
    obtain rfl : s.rxq = q := hq
    obtain rfl : s.sched = ms := hs
    simp [Memory.fill]
  | cons b g ih =>
    rw [List.length_cons] at hg
    have hidx : (s.idx + 1).toNat = s.idx.toNat + 1 := toNat_succ_of_lt (by omega)
    have hsum : ∀ x : BitVec 8, x + 1 + BitVec.ofNat 8 g.length = x + BitVec.ofNat 8 (g.length + 1) := by
      intro x
      rw [BitVec.ofNat_add, BitVec.add_assoc, BitVec.add_comm 1]
      rfl
    have hfill : Memory.fill (frameLen s) s.rxbuf s.idx.toNat (b :: g) =
        Memory.fill (frameLen s) (Memory.write s.rxbuf s.idx.toNat b) (s.idx + 1).toNat g := by
      rw [Memory.fill, if_pos (by omega), hidx]
    rw [List.length_cons, show g.length + 1 + k = (g.length + k) + 1 by omega,
      run_succ_next _ (step_rxPoll (ms := List.replicate g.length .rxPoll ++ ms) hs),
      poll_receiving_byte (b := b) (rest := g ++ q) (by exact hf) (by exact hq),
      recvByte_more (by show s.idx.toNat + 1 ≠ frameLen s; omega), hfill, ← hsum, ← hsum]
    refine ih ?_ ?_ ?_ ?_ ?_
    · exact hf
    · exact hlen
    · show (s.idx + 1).toNat + g.length < frameLen s
      omega
    · rfl
    · rfl

/-- The poll that takes the last byte of a frame `f` verifies the frame as `RXBUF` then spells it (R153, R155). -/
theorem recvByte_frame {s : State} {b : Byte} {q f : List Byte} {m : Memory}
    (last : s.idx.toNat + 1 = frameLen s) (hlen : f.length = frameLen s) (h2 : 2 ≤ f.length)
    (hm : Memory.write s.rxbuf s.idx.toNat b = m)
    (hread : ∀ i (h : i < f.length), Memory.read m i = some f[i]) :
    recvByte b q s =
      { s with
        rxq := q, rxcnt := s.rxcnt + 1, rxbuf := m
        csumCalc := Config.csum16 (f.take (f.length - 2))
        csumWire := f.getD (f.length - 2) 0 ++ f.getD (f.length - 1) 0
        idx := 0, fsm := .replying } := by
  obtain ⟨hcalc, hwire⟩ := verify_parts h2
  rw [recvByte_last last, hm, ← hlen, Memory.bytes_eq_of_read _ hread, hcalc, hwire]
  rfl

/-- What `RXBUF` reads as with a frame stored from its entry 0 on (R37, R153). -/
theorem Memory.read_fill_frame (m : Memory) (f : List Byte) :
    (∀ i (h : i < f.length), Memory.read (Memory.fill f.length m 0 f) i = some f[i]) ∧
      ∀ a, f.length ≤ a → Memory.read (Memory.fill f.length m 0 f) a = Memory.read m a := by
  refine ⟨fun i h => ?_, fun a ha => ?_⟩
  · rw [Memory.read_fill, if_pos (by omega), Nat.sub_zero, List.getElem?_eq_getElem h]
  · rw [Memory.read_fill, if_neg (by omega)]

/-- Settles O19: the run of polls stores all but the last byte, and the poll that takes the last verifies the
frame. -/
theorem pendingFrameIsReceivedWhole : Obligations.PendingFrameIsReceivedWhole := by
  intro s f q ms hinv hf hi hlen hq hs
  obtain ⟨⟨-, hge, hle, -⟩, -, hcnt, -⟩ := hinv.receiving hf
  have hfit : frameLen s ≤ 255 := hle.trans hinv.legal.rxBufSize_le
  obtain ⟨hread, hother⟩ := Memory.read_fill_frame s.rxbuf f
  refine ⟨Memory.fill f.length s.rxbuf 0 f, hread, hother, ?_⟩
  obtain ⟨g, b, rfl⟩ : ∃ g b, f = g ++ [b] :=
    have hne : f ≠ [] := List.ne_nil_of_length_pos (by omega)
    ⟨_, _, (List.dropLast_append_getLast hne).symm⟩
  have hg : g.length + 1 = frameLen s := by simpa using hlen
  have hidx : (s.idx + BitVec.ofNat 8 g.length).toNat = g.length := by
    simp [hi]
    omega
  have hcount : s.rxcnt + BitVec.ofNat 8 g.length + 1 = BitVec.ofNat 8 (g ++ [b]).length := by
    simp [hcnt, hi, BitVec.ofNat_add]
  have hstored : Memory.write (Memory.fill (frameLen s) s.rxbuf s.idx.toNat g)
      (s.idx + BitVec.ofNat 8 g.length).toNat b = Memory.fill (g ++ [b]).length s.rxbuf 0 (g ++ [b]) := by
    rw [hidx, hi, Memory.fill_append, Nat.zero_add, Memory.fill_singleton (by simp), hlen]
    rfl
  have hrun := run_polls g (b :: q) (.rxPoll :: ms) 1 hf hfit (by rw [hi]; show 0 + _ < _; omega)
    (by simpa using hq) (by simpa [List.replicate_succ'] using hs)
  have hlast := recvByte_frame (q := q) (f := g ++ [b])
    (s := { s with
      sched := ms, rxq := b :: q
      rxbuf := Memory.fill (frameLen s) s.rxbuf s.idx.toNat g
      rxcnt := s.rxcnt + BitVec.ofNat 8 g.length, idx := s.idx + BitVec.ofNat 8 g.length })
    ((congrArg (· + 1) hidx).trans hg) hlen (hlen ▸ hge) hstored hread
  conv_lhs =>
    rw [List.length_append, List.length_singleton, hrun, run_one, step_rxPoll rfl,
      poll_receiving_byte (by exact hf) rfl, hlast]
  rw [hcount]
  rfl

end Sys2Proof.Machine

/-! `EXEC`: its launch by the length of the payload, the steps that send its frame and take its acknowledgment byte,
and the ways it fails. -/

namespace Sys2Proof.Machine

/-- In `IDLE` the row `EXEC` is its launch on the cleared state (R110, R130). -/
theorem exec_exec_idle {s : State} (hi : s.fsm = .idle) : exec .exec s = launchExec (beginOp 0x01 s) :=
  whenIdle_idle hi _

/-- Settles O6: the launch is by the length, and the cleared state has the arguments of the state before it. -/
theorem execLaunchByLength : Obligations.ExecLaunchByLength := by
  refine fun s hi => ⟨fun hlong => ?_, fun p hlen hfit hread => ?_⟩
  · rw [exec_exec_idle hi, launchExec_tooLong (by exact hlong)]
    rfl
  · rw [exec_exec_idle hi, launchExec_payload (by exact hlen) (by exact hfit) (by exact hread)]
    rfl

/-- In `SENDING` an accepted offer is the step *send-accepted* (R133). -/
theorem step_txAccept_sending {s : State} {ms : List Move} (hf : s.fsm = .sending)
    (hs : s.sched = .txAccept :: ms) : step s = .next (sendAccepted { s with sched := ms }) := by
  rw [step_txAccept hs, offerAccepted_sending (by exact hf)]

/-- Settles O20: one offer by its offset, and the run of all the offers from offset 0. -/
theorem sendAcceptedStep : Obligations.SendAcceptedStep := by
  refine ⟨fun s ms hf hs => ⟨fun hlast => ?_, fun hmore => ?_⟩, ?_⟩
  · rw [step_txAccept_sending hf hs, sendAccepted_last (by exact hlast)]
    rfl
  · rw [step_txAccept_sending hf hs, sendAccepted_more (by exact hmore)]
    rfl
  · rintro s _ ms hinv hf hi rfl hs
    have hsend := hinv.sending hf
    have hfit : s.txlen.toNat ≤ 251 := hsend.length.trans hinv.legal.maxPayload_le
    have hidx : s.idx.toNat = 0 := congrArg BitVec.toNat hi
    have hcount : s.txcnt + BitVec.ofNat 8 (s.txlen.toNat + 4) = BitVec.ofNat 8 (s.txlen.toNat + 4) := by
      simp [hsend.txcnt, hi]
    have hframe : (List.range' s.idx.toNat (s.txlen.toNat + 4)).map (txByte s) = txFrame (payload s) := by
      rw [hidx, ← List.range_eq_range', ← offeredFrame_eq_txFrame hsend.csum, offeredFrame]
    rw [run_accepts (s.txlen.toNat + 3) ms hf hfit (by omega) hs, hcount, hframe]
    rfl

/-- Settles O21: the poll takes the byte and classifies it (R102, R210). -/
theorem ackByteStep : Obligations.AckByteStep := by
  intro s b rest ms hf hq hs
  rw [step_rxPoll hs, poll_awaitAck_byte (by exact hf) (by exact hq)]
  rfl

/-- Settles O22: each failure ends the operation where it stands, and the counters are those of the invariant. -/
theorem exchangeFailureSteps : Obligations.ExchangeFailureSteps := by
  intro s ms hinv
  have hack (hf : s.fsm = .awaitAck) : s.ackvalid = false := (hinv.noResults (by simp [hf])).ackvalid
  refine ⟨fun hf hs => ?_, fun hf hs => ⟨hack hf, ?_⟩,
    fun hf hs hq ht => ⟨hack hf, (hinv.awaiting hf).rxcnt, ?_⟩, fun hf hs hq ht => ?_⟩
  · have hsend := hinv.sending hf
    refine ⟨hsend.txcnt ▸ hsend.idx_le, ?_⟩
    rw [step_txFail hs, offerFailed_sending (by exact hf)]
    rfl
  · rw [step_rxErr hs, poll_awaitAck_err (by exact hf)]
    rfl
  · rw [step_rxPoll hs, poll_awaitAck_none (by exact hf) (by exact hq), if_pos (by exact ht)]
    rfl
  · rw [step_rxPoll hs, poll_awaitAck_none (by exact hf) (by exact hq), if_neg (by exact ht)]

end Sys2Proof.Machine

/-! The receive operations: their launches, the steps that take a frame and answer it, and the ways they fail. -/

namespace Sys2Proof.Machine

/-! ## Launches -/

/-- In `IDLE` the launch of a receive operation of a legal frame length enters `RECEIVING` with the timer loaded and
`rxq` kept (R151). -/
theorem receiveLaunch_legal {s : State} (hi : s.fsm = .idle) (op : Byte) {len : Nat} (h2 : 2 ≤ len)
    (hle : len ≤ s.cfg.rxBufSize) :
    whenIdle s (.next (launchRx len (beginOp op s))) =
      .next { clearResults s with opr := op, idx := 0, tmr := s.timeout, fsm := .receiving } := by
  rw [whenIdle_idle hi, launchRx_legal h2 (by exact hle)]
  rfl

/-- In `IDLE` the launch of a receive operation of an illegal frame length ends at once (R151). -/
theorem receiveLaunch_illegal {s : State} (hi : s.fsm = .idle) (op : Byte) {len : Nat}
    (hlen : len < 2 ∨ s.cfg.rxBufSize < len) :
    whenIdle s (.next (launchRx len (beginOp op s))) =
      .next { clearResults s with
        opr := op, result := .encodingError, done := true, idx := 0, fsm := .idle } := by
  rw [whenIdle_idle hi, launchRx_illegal (by exact hlen)]
  rfl

/-- Settles O8: `RX_FRAME` by its length argument; the two report lengths are legal in a legal configuration
(R9, R10). -/
theorem receiveLaunchByLength : Obligations.ReceiveLaunchByLength := by
  intro s hi hc
  have hstatus := hc.statusFrameLen_ge
  have hversion := hc.verOffModel_le
  exact ⟨receiveLaunch_illegal hi 0x02, receiveLaunch_legal hi 0x02,
    receiveLaunch_legal hi 0x03 (by omega) hc.statusFrameLen_le,
    receiveLaunch_legal hi 0x04 (by omega) hc.versionFrameLen_le⟩

/-- The code 5 is `RX_CARD`, whatever bits 31:8 are (R110, R111). -/
theorem decodeCmd_rxCard {w : Word} (h : w.toNat % 256 = 5) : decodeCmd w = .rxCard := by
  simp only [decodeCmd, lowByte_toNat, h]

/-- In `IDLE` the row `RX_CARD` ends on the cleared state (R172). -/
theorem exec_rxCard_idle {s : State} (hi : s.fsm = .idle) :
    exec .rxCard s = .next (finish .notImplemented (beginOp 0x05 s)) :=
  whenIdle_idle hi _

/-- Settles O5: the launch of `RX_CARD` is its end, and `NOT_IMPLEMENTED` is not an `OK` code. -/
theorem cardReadEndsNotImplemented : Obligations.CardReadEndsNotImplemented := by
  refine ⟨fun c w hw => congrArg Except.ok (decodeCmd_rxCard hw), fun s hi => ?_⟩
  rw [exec_rxCard_idle hi]
  refine ⟨rfl, fun t ht => ?_⟩
  cases ht
  rfl

/-! ## The steps of `RECEIVING` -/

/-- Settles O23: before the last byte by the step *recv-byte*, and with the last byte by what the buffer then
spells (R155). -/
theorem recvByteStep : Obligations.RecvByteStep := by
  intro s b rest ms hinv hf hq hs
  have hrecv : step s = .next (recvByte b rest { s with sched := ms }) := by
    rw [step_rxPoll hs, poll_receiving_byte (by exact hf) (by exact hq)]
  rw [hrecv]
  refine ⟨fun hmore => ?_, fun hlast f hlen hread => ?_⟩
  · rw [recvByte_more (by exact hmore)]
    rfl
  · have h2 : 2 ≤ f.length := hlen ▸ (hinv.receiving hf).op.len_ge
    rw [recvByte_frame (by exact hlast) (by exact hlen) h2 rfl (by exact hread)]

/-- Settles O24: both failures are `finish_rx` where the reception stands, with the checksums the invariant gives
a frame not yet verified. -/
theorem recvErrorAndTimeoutSteps : Obligations.RecvErrorAndTimeoutSteps := by
  intro s ms hinv hf
  have hrecv := hinv.receiving hf
  refine ⟨hrecv.csumCalc, hrecv.csumWire, fun hs => ?_, fun hs hq ht => ?_, fun hs hq ht => ?_⟩
  · rw [step_rxErr hs, poll_receiving_err (by exact hf), recvError, finishRx_eq]
  · rw [step_rxPoll hs, poll_receiving_none (by exact hf) (by exact hq), if_pos (by exact ht),
      recvTimeout, finishRx_eq]
  · rw [step_rxPoll hs, poll_receiving_none (by exact hf) (by exact hq), if_neg (by exact ht)]

/-! ## The steps of `REPLYING` -/

theorem frameLen_rxStatus {s : State} (h : s.opr = 0x03) : frameLen s = s.cfg.statusFrameLen := by
  rw [frameLen, h]
  rfl

theorem frameLen_rxVersion {s : State} (h : s.opr = 0x04) : frameLen s = s.cfg.versionFrameLen := by
  rw [frameLen, h]
  rfl

/-- In `REPLYING` every entry of the frame holds a byte (R37). -/
theorem State.Replying.read {s : State} (h : s.Replying) {i : Nat} (hi : i < frameLen s) :
    ∃ b, Memory.read s.rxbuf i = some b :=
  (Memory.defined_iff _ _).1 h.stored i hi

/-- The first byte accepted since the launch makes `TXCNT` 1 (R36, R67). -/
theorem logTx_first {s : State} (h : s.txcnt = 0) (b : Byte) :
    logTx b s = { s with wireTx := s.wireTx ++ [b], txcnt := 1 } := by
  rw [logTx, h]
  rfl

/-- In `REPLYING` an accepted offer is the step *reply-accepted* (R157). -/
theorem step_txAccept_replying {s : State} {ms : List Move} (hf : s.fsm = .replying)
    (hs : s.sched = .txAccept :: ms) : step s = .next (replyAccepted { s with sched := ms }) := by
  rw [step_txAccept hs, offerAccepted_replying (by exact hf)]

/-- Settles O26: with a match by what the operation decodes, at offsets inside the stored frame; with a mismatch
nothing is decoded. -/
theorem replyAcceptedStep : Obligations.ReplyAcceptedStep := by
  intro s ms hinv hf hs
  have hrep := hinv.replying hf
  have hc := hinv.legal
  rw [step_txAccept_replying hf hs]
  refine ⟨fun hm => ?_, fun hm => ?_⟩
  · rw [replyAccepted_match (by exact hm), logTx_first (by exact hrep.op.txcnt)]
    refine ⟨fun hop => ?_, fun hop => ?_, fun hop => ?_⟩
    · rw [decodeReport_frame (by exact hop)]
      rfl
    · have hlen := frameLen_rxStatus hop
      have hge := hc.statusFrameLen_ge
      obtain ⟨st, hst⟩ := hrep.read (i := 3) (by omega)
      refine ⟨st, hst, ?_⟩
      rw [decodeReport_status (by exact hop) (by exact hst)]
      rfl
    · have hlen := frameLen_rxVersion hop
      obtain ⟨m, hmodel⟩ := hrep.read (i := s.cfg.verOffModel) (by have := hc.verOffModel_le; omega)
      obtain ⟨f, hfw⟩ := hrep.read (i := s.cfg.verOffFw) (by have := hc.verOffFw_le; omega)
      obtain ⟨h, hhw⟩ := hrep.read (i := s.cfg.verOffHw) (by have := hc.verOffHw_le; omega)
      refine ⟨m, f, h, hmodel, hfw, hhw, ?_⟩
      rw [decodeReport_version (by exact hop) (by exact hmodel) (by exact hfw) (by exact hhw)]
      rfl
  · rw [replyAccepted_mismatch (by exact hm), logTx_first (by exact hrep.op.txcnt), finishRx_eq]

/-- Settles O27: a failed reply is `finish_rx` where the reception stands, with no byte sent since the launch. -/
theorem replyFailedStep : Obligations.ReplyFailedStep := by
  intro s ms hinv hf hs
  refine ⟨(hinv.replying hf).op.txcnt, ?_⟩
  rw [step_txFail hs, offerFailed_replying (by exact hf), replyFailed, finishRx_eq]

end Sys2Proof.Machine

/-! The control operations: `NOP`, which changes nothing, and the launches of `FLUSH` and of the reserved codes,
which end in the launch step. -/

namespace Sys2Proof.Machine

/-- `OK` after `finish(code)` is the code's own (R32, R204). -/
theorem okFlag_of_next_finish {code : ResultCode} {u t : State}
    (h : (.next (finish code u) : Host.Outcome State Fault Refusal) = .next t) :
    okFlag t = code.isOk := by
  cases h
  rfl

/-- In `IDLE` the row `FLUSH` ends on the cleared state with the queue empty (R182). -/
theorem exec_flush_idle {s : State} (hi : s.fsm = .idle) :
    exec .flush s = .next (finish .flushed (rxFlush (beginOp 0x06 s))) :=
  whenIdle_idle hi _

/-- In `IDLE` a reserved code ends on the cleared state (R183). -/
theorem exec_reserved_idle {s : State} (hi : s.fsm = .idle) (op : Byte) :
    exec (.reserved op) s = .next (finish .illegalOp (beginOp op s)) :=
  whenIdle_idle hi _

/-- Settles O1: the code 0 by the operation map, and the row `NOP` does not look at the state. -/
theorem nopChangesNothing : Obligations.NopChangesNothing :=
  ⟨fun c w hw => (operationMapIgnoresHighBits c w).trans (congrArg Except.ok (if_pos hw)), fun _ => rfl⟩

/-- Settles O3: the code 6 by the operation map; the launch of `FLUSH` is its end, and `FLUSHED` is an `OK` code. -/
theorem flushEmptiesQueueAndEnds : Obligations.FlushEmptiesQueueAndEnds := by
  refine ⟨fun c w hw => ?_, fun s hi => ?_⟩
  · simpa [hw] using operationMapIgnoresHighBits c w
  · rw [exec_flush_idle hi]
    exact ⟨rfl, fun _ => okFlag_of_next_finish⟩

/-- Settles O4: the codes the table does not name by their range; the launch is their end, and `ILLEGAL_OP` is not
an `OK` code. -/
theorem reservedCodeEndsIllegalOp : Obligations.ReservedCodeEndsIllegalOp := by
  refine ⟨fun c w hw => congrArg Except.ok ?_, fun op s _ hi => ?_⟩
  · rw [decodeCmd_reserved (by rwa [lowByte_toNat]), lowByte_eq]
  · rw [exec_reserved_idle hi]
    exact ⟨rfl, fun _ => okFlag_of_next_finish⟩

end Sys2Proof.Machine

/-! The templates of the device commands: the class marker and the subcommand they begin with, and their length
where the command has no argument. -/

namespace Sys2Proof.Machine

/-- The byte of a class marker (R192). -/
theorem classMarkerByte_eq (c : ClassMarker) : c.byte = 0x06 ∨ c.byte = 0x07 :=
  match c with
  | .short => .inl rfl
  | .param => .inr rfl

/-- A template is its class marker, a subcommand of one or two bytes, and its parameter bytes (R192). -/
theorem templateBytes_eq (n : TemplateName) :
    templateBytes n =
      (Config.template n).cls.byte :: (Config.template n).sub ::
        ((Config.template n).sub2.toList ++ if n.takesArgument then (Config.template n).params else []) :=
  rfl

/-- Settles O36: the first two bytes by the template's shape; without an argument at most the second subcommand
byte follows them. -/
theorem templateBeginsWithClassMarker : Obligations.TemplateBeginsWithClassMarker := by
  intro n
  rw [templateBytes_eq]
  refine ⟨Nat.le_add_left 2 _, ?_, fun hn => ?_⟩
  · simpa using classMarkerByte_eq (Config.template n).cls
  · have hsub2 : (Config.template n).sub2.toList.length ≤ 1 := Option.length_toList_le
    simp only [hn, Bool.false_eq_true, if_false, List.append_nil, List.length_cons]
    omega

end Sys2Proof.Machine

/-! The priority inside one poll of a wait: a read error, a pending byte, an expired timer (R210). -/

namespace Sys2Proof.Machine

section
variable {s : State} (hw : s.fsm = .awaitAck ∨ s.fsm = .receiving)
include hw

/-- A read error ends the wait, whatever is pending and whatever time is left (R137, R154). -/
theorem poll_err :
    poll true s =
      { s with
        result := .transportFailed, done := true, idx := 0, fsm := .idle
        devstat := if s.fsm = .receiving ∧ s.opr = 0x03 then ⟨.error, true, 0⟩ else s.devstat } := by
  rcases hw with hf | hf
  · rw [poll_awaitAck_err hf, if_neg (c := s.fsm = .receiving ∧ _) (by simp [hf])]
    rfl
  · rw [poll_receiving_err hf, recvError, finishRx_eq]
    simp only [hf, true_and]

/-- A pending byte is taken and counted, and the result is the byte's class or stays as it was (R136, R153). -/
theorem poll_pending {b : Byte} {rest : List Byte} (hq : s.rxq = b :: rest) :
    (poll false s).rxq = rest ∧ (poll false s).rxcnt = s.rxcnt + 1 ∧
      ((poll false s).result = classify b ∨ (poll false s).result = s.result) := by
  rcases hw with hf | hf
  · rw [poll_awaitAck_byte hf hq]
    exact ⟨rfl, rfl, .inl rfl⟩
  · rw [poll_receiving_byte hf hq]
    by_cases hlast : s.idx.toNat + 1 = frameLen s
    · rw [recvByte_last hlast]
      exact ⟨rfl, rfl, .inr rfl⟩
    · rw [recvByte_more hlast]
      exact ⟨rfl, rfl, .inr rfl⟩

end

/-- `TIMED_OUT` is the class of no byte (R102). -/
theorem classify_ne_timedOut (b : Byte) : classify b ≠ .timedOut := by
  rcases classify_cases b with hb | hb | hb <;> simp [hb]

/-- Settles O25: a read error and a quiet line by what the poll does to the whole state, a pending byte by the queue,
the count and the result, which no byte makes `TIMED_OUT`. -/
theorem pollFollowsThePriority : Obligations.PollFollowsThePriority := by
  refine fun s ms hw => ⟨fun hs => ?_, fun b rest hs hq => ?_, fun hs hq ht => ?_, fun hs hq ht => ?_⟩
  · rw [step_rxErr hs, poll_err (by exact hw)]
    exact ⟨_, rfl, rfl, rfl, rfl, rfl⟩
  · obtain ⟨hrest, hcount, hresult⟩ := poll_pending (s := { s with sched := ms }) hw hq
    refine ⟨_, step_rxPoll hs, hrest, hcount, fun hto => ?_⟩
    rcases hresult with hclass | hkept
    · exact absurd (hclass.symm.trans hto) (classify_ne_timedOut b)
    · exact hkept.symm.trans hto
  · rw [step_rxPoll hs, poll_quiet (by exact hw) (by exact hq), if_pos (by exact ht)]
    exact ⟨_, rfl, rfl, rfl, rfl⟩
  · rw [step_rxPoll hs, poll_quiet (by exact hw) (by exact hq), if_neg (by exact ht)]

end Sys2Proof.Machine

/-! What stops the machine and what leaves it waiting: the launch of `EXEC` over an unwritten entry, which is its only
stop, and an offer the transport does not answer. -/

namespace Sys2Proof.Machine

/-! ## The launch of `EXEC` over an unwritten entry -/

/-- The payload has a legal length and an entry the host has not written since reset (R237). -/
def State.PayloadUnwritten (s : State) : Prop :=
  s.txlen.toNat ≤ s.cfg.maxPayload ∧ ∃ i, i < s.txlen.toNat ∧ Memory.read s.txbuf i = none

/-- A span that is not defined throughout has an entry without a value. -/
theorem Memory.not_defined_iff (m : Memory) (n : Nat) :
    Memory.defined m n ≠ true ↔ ∃ i, i < n ∧ Memory.read m i = none := by
  simp [Memory.defined]

theorem State.PayloadUnwritten.launchExec_fault {s : State} (h : s.PayloadUnwritten) :
    launchExec s = .fault .txbufUnwritten := by
  obtain ⟨hlen, hentry⟩ := h
  exact launchExec_unwritten hlen ((Memory.not_defined_iff _ _).2 hentry)

/-- The launch of `EXEC` goes on, unless an entry is unwritten (R131, R237). -/
theorem launchExec_next {s : State} (h : ¬ s.PayloadUnwritten) : ∃ t, launchExec s = .next t := by
  by_cases hlong : s.cfg.maxPayload < s.txlen.toNat
  · exact ⟨_, launchExec_tooLong hlong⟩
  · have hlen := Nat.not_lt.1 hlong
    have hdefined : Memory.defined s.txbuf s.txlen.toNat = true := by
      by_contra hd
      exact h ⟨hlen, (Memory.not_defined_iff _ _).1 hd⟩
    exact ⟨_, launchExec_ready hlen hdefined⟩

/-- Settles O7: the common head of the launch keeps the length and the payload, so the entry is still unwritten. -/
theorem execOverUnwrittenPayloadFaults : Obligations.ExecOverUnwrittenPayloadFaults := by
  intro s i hi hlen hlt hread
  have hu : (beginOp 0x01 s).PayloadUnwritten := ⟨hlen, i, hlt, hread⟩
  rw [exec_exec_idle hi, hu.launchExec_fault]

/-! ## The only stop -/

/-- The next move writes the code of `EXEC` to `CMD` in `IDLE`, over an unwritten entry. -/
def State.LaunchesUnwritten (s : State) : Prop :=
  hostMoves s ∧ s.fsm = .idle ∧ (∃ v ls, s.host = .wr 0x000 v :: ls ∧ v.toNat % 256 = 0x01) ∧
    s.PayloadUnwritten

/-- The code 1 is `EXEC`, and no other is (R111). -/
theorem decodeCmd_exec_iff (w : Word) : decodeCmd w = .exec ↔ w.toNat % 256 = 1 := by
  unfold decodeCmd
  rw [← lowByte_toNat]
  split
  case h_8 _ h1 _ _ _ _ _ => exact iff_of_false nofun h1
  all_goals
    rename_i h
    simp [h]

/-- The body of every launch but that of `EXEC` goes on. -/
theorem launchBody_next {i : Instr} (h : i ≠ .exec) (u : State) : ∃ t, launchBody i u = .next t := by
  unfold launchBody
  split
  next => exact absurd rfl h
  all_goals exact ⟨_, rfl⟩

/-- A write to `CMD` goes on, or it is the launch of `EXEC` over an unwritten entry, which faults. -/
theorem exec_decodeCmd_outcome (w : Word) (s : State) :
    (∃ t, exec (decodeCmd w) s = .next t) ∨
      exec (decodeCmd w) s = .fault .txbufUnwritten ∧
        s.fsm = .idle ∧ w.toNat % 256 = 0x01 ∧ s.PayloadUnwritten := by
  by_cases hi : s.fsm = .idle
  · by_cases hw : w.toNat % 256 = 1
    · rw [(decodeCmd_exec_iff w).2 hw, exec_exec_idle hi]
      by_cases hu : s.PayloadUnwritten
      · have hb : (beginOp 0x01 s).PayloadUnwritten := hu
        exact .inr ⟨hb.launchExec_fault, hi, hw, hu⟩
      · exact .inl (launchExec_next (by exact hu))
    · by_cases h0 : w.toNat % 256 = 0
      · exact .inl ⟨s, exec_decodeCmd_nop h0 s⟩
      · rw [exec_decodeCmd_idle h0 hi]
        exact .inl (launchBody_next (fun he => hw ((decodeCmd_exec_iff w).1 he)) _)
  · exact .inl ⟨s, exec_decodeCmd_busy w hi⟩

/-- A step goes on, or it is the launch of `EXEC` over an unwritten entry, which faults. -/
theorem step_outcome (s : State) :
    (∃ t, step s = .next t) ∨ step s = .fault .txbufUnwritten ∧ s.LaunchesUnwritten := by
  cases hs : s.sched with
  | nil => exact .inl ⟨s, step_idle hs⟩
  | cons m ms =>
    cases m with
    | dev b => exact .inl ⟨_, step_dev hs⟩
    | devFrame f => exact .inl ⟨_, step_devFrame hs⟩
    | tick => exact .inl ⟨_, step_tick hs⟩
    | txAccept => exact .inl ⟨_, step_txAccept hs⟩
    | txFrame => exact .inl ⟨_, step_txFrame hs⟩
    | txFail => exact .inl ⟨_, step_txFail hs⟩
    | rxPoll => exact .inl ⟨_, step_rxPoll hs⟩
    | rxErr => exact .inl ⟨_, step_rxErr hs⟩
    | reset => exact .inl ⟨_, step_reset hs⟩
    | host =>
      cases hh : s.host with
      | nil => exact .inl ⟨_, step_host_none hs hh⟩
      | cons l ls =>
        cases l with
        | rd a => exact .inl ⟨_, step_host_rd hs hh⟩
        | wait => exact .inl ⟨_, step_host_wait hs hh⟩
        | pseudo l =>
          obtain ⟨p, -, hp⟩ := exec_decodePseudo l { s with sched := ms, host := ls }
          exact .inl ⟨_, (step_host_pseudo hs hh).trans hp⟩
        | wr a v =>
          by_cases ha : a.toNat = 0
          · have hcmd : a = 0x000 := BitVec.eq_of_toNat_eq ha
            rw [step_host_cmd hs hh ha]
            refine (exec_decodeCmd_outcome v _).imp id fun ⟨hfault, hi, hv, hu⟩ => ?_
            exact ⟨hfault, by rw [hostMoves, hs]; rfl, hi, ⟨v, ls, by rw [hh, hcmd], hv⟩, hu⟩
          · exact .inl ⟨_, step_host_wr hs hh ha⟩

/-- Settles O60, by the two outcomes of a step. -/
theorem onlyAnUnwrittenPayloadStops : Obligations.OnlyAnUnwrittenPayloadStops := by
  intro s
  rcases step_outcome s with ⟨t, hnext⟩ | ⟨hfault, host, idle, line, length, entry⟩
  · exact ⟨fun r h => (nomatch hnext.symm.trans h), fun f h => (nomatch hnext.symm.trans h)⟩
  · refine ⟨fun r h => (nomatch hfault.symm.trans h), fun f h => ?_⟩
    cases hfault.symm.trans h
    exact ⟨rfl, host, idle, line, length, entry⟩

/-! ## An offer without an answer -/

/-- While the engine offers a byte, only an answer of the transport brings about a step of it (R67, R243). -/
theorem EngineStep.eq_of_unanswered {m : Move} {u t : State} (h : EngineStep m u t)
    (hf : u.fsm = .sending ∨ u.fsm = .replying)
    (ha : m ≠ .txAccept) (hframe : m ≠ .txFrame) (hfail : m ≠ .txFail) : t = u := by
  cases h with
  | none => rfl
  | sentLast move | sentMore move => exact (move.elim ha hframe).elim
  | replied move | rejected move => exact absurd move ha
  | exchangeEnds _ from_ | receptionEnds _ from_ =>
    rcases from_ with ⟨-, move⟩ | ⟨fsm, -⟩
    · exact absurd move hfail
    · simp [fsm] at hf
  | ackByte _ _ _ fsm | recvMore _ _ _ fsm | recvLast _ _ _ _ fsm => simp [fsm] at hf

/-- A tick counts down only a wait for a byte (R41). -/
theorem tick_off {s : State} (hf : s.fsm = .sending ∨ s.fsm = .replying) : tick s = s := by
  rcases hf with hf | hf <;> simp only [tick, hf]

/-- Settles O53: a tick finds no wait to count down, the engine has no answer to act on, and a launch or a host write
to an argument needs `IDLE`. -/
theorem unansweredOfferHangs : Obligations.UnansweredOfferHangs := by
  intro s t hf ha hframe hfail hr h
  have hbusy : s.fsm ≠ .idle := by rcases hf with hf | hf <;> simp [hf]
  by_cases htick : s.sched.head? = some .tick
  · obtain ⟨ms, hs⟩ := List.head?_eq_some_iff.1 htick
    rw [step_tick hs, tick_off (by exact hf)] at h
    cases h
    exact ⟨rfl, rfl, rfl, rfl, rfl, rfl, rfl, rfl⟩
  · cases step_kind h hr with
    | around tm q ls rd ms k timer => exact ⟨rfl, rfl, rfl, rfl, rfl, rfl, rfl, timer htick⟩
    | engine m ms t move does =>
      rw [move, ne_eq, Option.some.injEq] at ha hframe hfail
      rw [does.eq_of_unanswered (by exact hf) ha hframe hfail]
      exact ⟨rfl, rfl, rfl, rfl, rfl, rfl, rfl, rfl⟩
    | launch ms ls t launched =>
      obtain ⟨-, idle, -⟩ := launched
      exact absurd idle hbusy
    | argument ms ls l r tm m host idle => exact absurd idle hbusy

end Sys2Proof.Machine
